-- ==== Sys2Proof/Word.lean ====
section
/-! DEFINITION. The word types of the engine (`00_scope.md` R6, R8): all values are unsigned. -/

namespace Sys2Proof

/-- A byte: a memory cell, a general register, a timer, an immediate NN (R6, R21, R33). -/
abbrev Byte := BitVec 8

/-- A 16-bit word: an instruction word, `pc`, the index register `I`, a stack entry (R6, R90). -/
abbrev Word := BitVec 16

/-- The 12-bit address field NNN of an instruction word (R91). -/
abbrev Addr := BitVec 12

/-- The number of a general register, V0 to VF (R21). -/
abbrev Reg := Fin 16

/-- VF, register 15, the flag register (R22). -/
abbrev vf : Reg := 15

end Sys2Proof
end

