-- ==== Sys2Proof/Config.lean ====
section
/-! DEFINITION. The fixed sizes of the engine (`00_scope.md` R6) and the values the spec's two behavioural
parameters can take (R7). Which value this model takes, and the glyph bytes, stand in `Machine/Params.lean`. -/

namespace Sys2Proof.Config

/-- MEM_SIZE: addresses 0 to 4095 (R6, R61). -/
@[simp] abbrev memSize : Nat := 4096

/-- PROG_BASE: the reset value of `pc` and the address the loader starts at (R6, R66, R241). -/
@[simp] abbrev progBase : Nat := 0x200

/-- GLYPH_BYTES: the glyph table is the 80 bytes from address 0 (R6, R66). -/
@[simp] abbrev glyphBytes : Nat := 80

/-- The longest image the loader port takes, `4096 - 512` (R71). -/
@[simp] abbrev maxImage : Nat := 3584

/-- FB_W: pixels in a row of the framebuffer (R6, R35). -/
@[simp] abbrev fbWidth : Nat := 64

/-- FB_H: rows of the framebuffer (R6, R35). -/
@[simp] abbrev fbHeight : Nat := 32

/-- Entries of the framebuffer, `64 * 32` (R6, R35). -/
@[simp] abbrev fbSize : Nat := 2048

/-- STACK_DEPTH: entries of the call stack (R6, R30). -/
@[simp] abbrev stackDepth : Nat := 16

/-- NUM_KEYS: key inputs, indices 0 to 15 (R6, R37). -/
@[simp] abbrev numKeys : Nat := 16

end Sys2Proof.Config

namespace Sys2Proof

/-- DRAW_EDGE: what DXYN does with a pixel past the right or bottom edge (R192). -/
inductive DrawEdge where
  /-- Column modulo 64, row modulo 32. -/
  | wrap
  /-- The pixel is dropped: neither tested for collision nor written. -/
  | clip
deriving DecidableEq, Repr

/-- JUMP_OFFSET: how BNNN forms its target (R143; `93_implementation_defined.md` U2, G4). -/
inductive JumpOffset where
  /-- `NNN + V[0]`. -/
  | sum
  /-- `w AND (0x0FFF + V[0])`, the repository's probable expression (G4). -/
  | literal
deriving DecidableEq, Repr

end Sys2Proof
end

