-- ==== Sys2Proof/Syntax.lean ====
section
/-! DEFINITION. The 24 instructions of the engine (`30_encoding.md` R96): one constructor per row of
`spec/opcode_table.json`. -/

namespace Sys2Proof

/-- An instruction, operands as R93 uses them: `x`, `y` register numbers, `nn` a byte, `nnn` a 12-bit address,
`n` the row count of DXYN (a number; an encoding holds 0 to 15, see `Instr.wf`). -/
inductive Instr where
  /-- 00E0, clear display (R190). -/
  | cls
  /-- 00EE, return from subroutine (R140). -/
  | ret
  /-- 1NNN, jump (R141). -/
  | jp (nnn : Addr)
  /-- 2NNN, call (R142). -/
  | call (nnn : Addr)
  /-- 3XNN, skip if equal immediate (R150). -/
  | seVxNn (x : Reg) (nn : Byte)
  /-- 4XNN, skip if not equal immediate (R151). -/
  | sneVxNn (x : Reg) (nn : Byte)
  /-- 5XY0, skip if registers equal (R152). -/
  | seVxVy (x y : Reg)
  /-- 6XNN, load immediate (R160). -/
  | ldVxNn (x : Reg) (nn : Byte)
  /-- 7XNN, add immediate (R161). -/
  | addVxNn (x : Reg) (nn : Byte)
  /-- 8XY0, register move (R170). -/
  | ldVxVy (x y : Reg)
  /-- 8XY1, bitwise OR (R171). -/
  | or (x y : Reg)
  /-- 8XY2, bitwise AND (R172). -/
  | and (x y : Reg)
  /-- 8XY3, bitwise exclusive OR (R173). -/
  | xor (x y : Reg)
  /-- 8XY4, add with carry flag (R174). -/
  | addVxVy (x y : Reg)
  /-- 8XY5, subtract with no-borrow flag (R175). -/
  | sub (x y : Reg)
  /-- 8XY6, shift right (R176). -/
  | shr (x y : Reg)
  /-- 8XY7, reverse subtract (R177). -/
  | subn (x y : Reg)
  /-- 8XYE, shift left (R178). -/
  | shl (x y : Reg)
  /-- 9XY0, skip if registers not equal (R153). -/
  | sneVxVy (x y : Reg)
  /-- ANNN, load index register (R162). -/
  | ldINnn (nnn : Addr)
  /-- BNNN, jump with offset (R143). -/
  | jpV0Nnn (nnn : Addr)
  /-- DXYN, draw sprite (R191). -/
  | drw (x y : Reg) (n : Nat)
  /-- FX07, read delay timer (R200). -/
  | ldVxDt (x : Reg)
  /-- FX0A, blocking key wait (R201). -/
  | ldVxK (x : Reg)
deriving DecidableEq, Repr

/-- The mnemonic of an instruction's row (R96's mnemonic column). -/
def Instr.mnemonic : Instr → String
  | .cls => "CLS"
  | .ret => "RET"
  | .jp _ => "JP"
  | .call _ => "CALL"
  | .seVxNn _ _ => "SE_VX_NN"
  | .sneVxNn _ _ => "SNE_VX_NN"
  | .seVxVy _ _ => "SE_VX_VY"
  | .ldVxNn _ _ => "LD_VX_NN"
  | .addVxNn _ _ => "ADD_VX_NN"
  | .ldVxVy _ _ => "LD_VX_VY"
  | .or _ _ => "OR"
  | .and _ _ => "AND"
  | .xor _ _ => "XOR"
  | .addVxVy _ _ => "ADD_VX_VY"
  | .sub _ _ => "SUB"
  | .shr _ _ => "SHR"
  | .subn _ _ => "SUBN"
  | .shl _ _ => "SHL"
  | .sneVxVy _ _ => "SNE_VX_VY"
  | .ldINnn _ => "LD_I_NNN"
  | .jpV0Nnn _ => "JP_V0_NNN"
  | .drw _ _ _ => "DRW"
  | .ldVxDt _ => "LD_VX_DT"
  | .ldVxK _ => "LD_VX_K"

/-- One row of R96's table: a word `w` is the row's instruction when `w AND mask = pattern`. -/
structure OpRow where
  mnemonic : String
  pattern : Word
  mask : Word
deriving DecidableEq, Repr

/-- Why a word is no instruction: the classes of R99, by the group (top nibble) they lie in. -/
inductive Reject where
  /-- Group 0 and the word is neither 0x00E0 nor 0x00EE (R97). -/
  | group0
  /-- Group 5 with a low nibble other than 0 (R98). -/
  | group5
  /-- Group 8 with a low nibble in 8, 9, A, B, C, D, F (R98). -/
  | group8
  /-- Group 9 with a low nibble other than 0 (R98). -/
  | group9
  /-- Group C: no instruction (R95). -/
  | groupC
  /-- Group E: no instruction (R95). -/
  | groupE
  /-- Group F with a low byte other than 0x07 and 0x0A (R98). -/
  | groupF
  /-- Fewer than two bytes: an instruction is one 16-bit word (R90). -/
  | tooShort
deriving DecidableEq, Repr

end Sys2Proof
end

