-- ==== Sys2Proof/WellFormed.lean ====
section
/-! DEFINITION. What a term must satisfy to be an instruction an encoding can hold, and a program image the
loader port can take. Register numbers, bytes and addresses are bounded by their types; the row count of DXYN
and the length of an image are not, and are checked here. -/

namespace Sys2Proof

/-- The instruction has an encoding: the row count of DXYN is 0 to 15 (R93: "N in DXYN is an unsigned row count
0 to 15"); every other operand is bounded by its type. -/
def Instr.wf : Instr → Bool
  | .cls => true
  | .ret => true
  | .jp _ => true
  | .call _ => true
  | .seVxNn _ _ => true
  | .sneVxNn _ _ => true
  | .seVxVy _ _ => true
  | .ldVxNn _ _ => true
  | .addVxNn _ _ => true
  | .ldVxVy _ _ => true
  | .or _ _ => true
  | .and _ _ => true
  | .xor _ _ => true
  | .addVxVy _ _ => true
  | .sub _ _ => true
  | .shr _ _ => true
  | .subn _ _ => true
  | .shl _ _ => true
  | .sneVxVy _ _ => true
  | .ldINnn _ => true
  | .jpV0Nnn _ => true
  | .drw _ _ n => decide (n < 16)
  | .ldVxDt _ => true
  | .ldVxK _ => true

/-- A program image the loader port can take: at most 3584 bytes (R71, R227; `93_implementation_defined.md` U7). -/
def imageFits (image : List Byte) : Bool := decide (image.length ≤ Config.maxImage)

end Sys2Proof
end

