-- ==== Sys2Proof/Decode.lean ====
section
/-! DEFINITION. The decoder (`30_encoding.md` R91, R94 to R99), total on words and on bytes and rejecting by
name, and after it the encoder (R92, R96) and R96's table of masks. -/

namespace Sys2Proof

/-! ### Fields (R91) -/

/-- G, bits 15 to 12. -/
def fieldG (w : Word) : BitVec 4 := w.extractLsb' 12 4

/-- X, bits 11 to 8. -/
def fieldX (w : Word) : Reg := (w.extractLsb' 8 4).toFin

/-- Y, bits 7 to 4. -/
def fieldY (w : Word) : Reg := (w.extractLsb' 4 4).toFin

/-- N, bits 3 to 0. -/
def fieldN (w : Word) : BitVec 4 := w.extractLsb' 0 4

/-- NN, bits 7 to 0. -/
def fieldNN (w : Word) : Byte := w.extractLsb' 0 8

/-- NNN, bits 11 to 0. -/
def fieldNNN (w : Word) : Addr := w.extractLsb' 0 12

/-! ### The two-level decode (R94) -/

/-- Group 0 is matched on the whole word (R97). -/
def decodeGroup0 (w : Word) : Except Reject Instr :=
  if w = 0x00E0#16 then .ok .cls
  else if w = 0x00EE#16 then .ok .ret
  else .error .group0

/-- Group 8 is matched on the low nibble `n` (R94, R98). -/
def decodeGroup8 (n : BitVec 4) (x y : Reg) : Except Reject Instr :=
  match n with
  | 0x0#4 => .ok (.ldVxVy x y)
  | 0x1#4 => .ok (.or x y)
  | 0x2#4 => .ok (.and x y)
  | 0x3#4 => .ok (.xor x y)
  | 0x4#4 => .ok (.addVxVy x y)
  | 0x5#4 => .ok (.sub x y)
  | 0x6#4 => .ok (.shr x y)
  | 0x7#4 => .ok (.subn x y)
  | 0xE#4 => .ok (.shl x y)
  | _ => .error .group8

/-- Group F is matched on the low byte `nn` (R94, R98). -/
def decodeGroupF (nn : Byte) (x : Reg) : Except Reject Instr :=
  match nn with
  | 0x07#8 => .ok (.ldVxDt x)
  | 0x0A#8 => .ok (.ldVxK x)
  | _ => .error .groupF

/-- A word of group `g`: the group map of R95. The last arm is group F. -/
def decodeGroup (g : BitVec 4) (w : Word) : Except Reject Instr :=
  match g with
  | 0x0#4 => decodeGroup0 w
  | 0x1#4 => .ok (.jp (fieldNNN w))
  | 0x2#4 => .ok (.call (fieldNNN w))
  | 0x3#4 => .ok (.seVxNn (fieldX w) (fieldNN w))
  | 0x4#4 => .ok (.sneVxNn (fieldX w) (fieldNN w))
  | 0x5#4 => if fieldN w = 0#4 then .ok (.seVxVy (fieldX w) (fieldY w)) else .error .group5
  | 0x6#4 => .ok (.ldVxNn (fieldX w) (fieldNN w))
  | 0x7#4 => .ok (.addVxNn (fieldX w) (fieldNN w))
  | 0x8#4 => decodeGroup8 (fieldN w) (fieldX w) (fieldY w)
  | 0x9#4 => if fieldN w = 0#4 then .ok (.sneVxVy (fieldX w) (fieldY w)) else .error .group9
  | 0xA#4 => .ok (.ldINnn (fieldNNN w))
  | 0xB#4 => .ok (.jpV0Nnn (fieldNNN w))
  | 0xC#4 => .error .groupC
  | 0xD#4 => .ok (.drw (fieldX w) (fieldY w) (fieldN w).toNat)
  | 0xE#4 => .error .groupE
  | _ => decodeGroupF (fieldNN w) (fieldX w)

/-- The decoder: the group selects (R94). -/
def decode (w : Word) : Except Reject Instr := decodeGroup (fieldG w) w

/-- Two bytes as one word, the byte at the lower address in the high bits (R62, R63). -/
def wordOfBytes (hi lo : Byte) : Word := hi ++ lo

/-- The decoder on bytes as they stand in memory: one instruction and the bytes after it. -/
def decodeBytes : List Byte → Except Reject (Instr × List Byte)
  | hi :: lo :: rest =>
    match decode (wordOfBytes hi lo) with
    | .ok i => .ok (i, rest)
    | .error r => .error r
  | _ => .error .tooShort

/-! ### The encoder (R92, R96) -/

/-- A register number as its 4-bit field. -/
def regBits (x : Reg) : BitVec 4 := BitVec.ofFin x

/-- Format A: `G NNN`. -/
def formatA (g : BitVec 4) (nnn : Addr) : Word := g ++ nnn

/-- Format RI: `G X NN`. -/
def formatRI (g : BitVec 4) (x : Reg) (nn : Byte) : Word := g ++ (regBits x ++ nn)

/-- Formats RR and RRN: `G X Y N`. -/
def formatRR (g : BitVec 4) (x y : Reg) (n : BitVec 4) : Word := g ++ (regBits x ++ (regBits y ++ n))

/-- The word of an instruction (R92, R96). -/
def encode : Instr → Word
  | .cls => 0x00E0#16
  | .ret => 0x00EE#16
  | .jp nnn => formatA 0x1#4 nnn
  | .call nnn => formatA 0x2#4 nnn
  | .seVxNn x nn => formatRI 0x3#4 x nn
  | .sneVxNn x nn => formatRI 0x4#4 x nn
  | .seVxVy x y => formatRR 0x5#4 x y 0x0#4
  | .ldVxNn x nn => formatRI 0x6#4 x nn
  | .addVxNn x nn => formatRI 0x7#4 x nn
  | .ldVxVy x y => formatRR 0x8#4 x y 0x0#4
  | .or x y => formatRR 0x8#4 x y 0x1#4
  | .and x y => formatRR 0x8#4 x y 0x2#4
  | .xor x y => formatRR 0x8#4 x y 0x3#4
  | .addVxVy x y => formatRR 0x8#4 x y 0x4#4
  | .sub x y => formatRR 0x8#4 x y 0x5#4
  | .shr x y => formatRR 0x8#4 x y 0x6#4
  | .subn x y => formatRR 0x8#4 x y 0x7#4
  | .shl x y => formatRR 0x8#4 x y 0xE#4
  | .sneVxVy x y => formatRR 0x9#4 x y 0x0#4
  | .ldINnn nnn => formatA 0xA#4 nnn
  | .jpV0Nnn nnn => formatA 0xB#4 nnn
  | .drw x y n => formatRR 0xD#4 x y (BitVec.ofNat 4 n)
  | .ldVxDt x => formatRI 0xF#4 x 0x07#8
  | .ldVxK x => formatRI 0xF#4 x 0x0A#8

/-- The high byte of a word, which memory holds at the lower address (R63). -/
def highByte (w : Word) : Byte := w.extractLsb' 8 8

/-- The low byte of a word. -/
def lowByte (w : Word) : Byte := w.extractLsb' 0 8

/-- The bytes of an instruction as they stand in memory, high byte first (R63, R102). -/
def encodeBytes (i : Instr) : List Byte := [highByte (encode i), lowByte (encode i)]

/-! ### The table of R96 -/

/-- R96's rows: mnemonic, match, mask. -/
def opcodeTable : List OpRow :=
  [⟨"CLS", 0x00E0, 0xFFFF⟩, ⟨"RET", 0x00EE, 0xFFFF⟩, ⟨"JP", 0x1000, 0xF000⟩, ⟨"CALL", 0x2000, 0xF000⟩,
   ⟨"SE_VX_NN", 0x3000, 0xF000⟩, ⟨"SNE_VX_NN", 0x4000, 0xF000⟩, ⟨"SE_VX_VY", 0x5000, 0xF00F⟩,
   ⟨"LD_VX_NN", 0x6000, 0xF000⟩, ⟨"ADD_VX_NN", 0x7000, 0xF000⟩] ++
  [⟨"LD_VX_VY", 0x8000, 0xF00F⟩, ⟨"OR", 0x8001, 0xF00F⟩, ⟨"AND", 0x8002, 0xF00F⟩, ⟨"XOR", 0x8003, 0xF00F⟩,
   ⟨"ADD_VX_VY", 0x8004, 0xF00F⟩, ⟨"SUB", 0x8005, 0xF00F⟩, ⟨"SHR", 0x8006, 0xF00F⟩, ⟨"SUBN", 0x8007, 0xF00F⟩,
   ⟨"SHL", 0x800E, 0xF00F⟩] ++
  [⟨"SNE_VX_VY", 0x9000, 0xF00F⟩, ⟨"LD_I_NNN", 0xA000, 0xF000⟩, ⟨"JP_V0_NNN", 0xB000, 0xF000⟩,
   ⟨"DRW", 0xD000, 0xF000⟩, ⟨"LD_VX_DT", 0xF007, 0xF0FF⟩, ⟨"LD_VX_K", 0xF00A, 0xF0FF⟩]

/-- The word is the row's instruction (R96). -/
def OpRow.matchesWord (r : OpRow) (w : Word) : Bool := decide (w &&& r.mask = r.pattern)

/-! ### The host's question -/

/-- The word of an instruction given as a number, bits from `nbits` on being 0; the table's rows are one 16-bit
word. -/
def tableWord (nbits w : Nat) : Word := BitVec.ofNat 16 (w % 2 ^ nbits)

/-- The instruction the decoder reads from the bytes, high byte first, of a word numbered as the opcode table
numbers it. -/
def decodeTableWord (nbits w : Nat) : Option Instr :=
  match decodeBytes [highByte (tableWord nbits w), lowByte (tableWord nbits w)] with
  | .ok (i, _) => some i
  | .error _ => none

end Sys2Proof
end

