-- ==== Sys2Proof/Machine/Params.lean ====
section
/-! DEFINITION. The values this model takes for the spec's three named parameters (`00_scope.md` R7), and what
memory holds after reset (R42, R66). -/

namespace Sys2Proof.Machine

/-- DRAW_EDGE, the spec's default `wrap` (R7, R192). -/
def drawEdge : DrawEdge := .wrap

/-- JUMP_OFFSET, the spec's default `sum` (R7, R143). -/
def jumpOffset : JumpOffset := .sum

/-- GLYPHS, the 80 glyph bytes at addresses 0x000 to 0x04F: the spec's default table (R67). PRESUMED: the spec
marks every byte as general knowledge. -/
def glyphs : List Byte :=
  [0xF0, 0x90, 0x90, 0x90, 0xF0] ++ [0x20, 0x60, 0x20, 0x20, 0x70] ++   -- 0, 1
  [0xF0, 0x10, 0xF0, 0x80, 0xF0] ++ [0xF0, 0x10, 0xF0, 0x10, 0xF0] ++   -- 2, 3
  [0x90, 0x90, 0xF0, 0x10, 0x10] ++ [0xF0, 0x80, 0xF0, 0x10, 0xF0] ++   -- 4, 5
  [0xF0, 0x80, 0xF0, 0x90, 0xF0] ++ [0xF0, 0x10, 0x20, 0x40, 0x40] ++   -- 6, 7
  [0xF0, 0x90, 0xF0, 0x90, 0xF0] ++ [0xF0, 0x90, 0xF0, 0x10, 0xF0] ++   -- 8, 9
  [0xF0, 0x90, 0xF0, 0x90, 0x90] ++ [0xE0, 0x90, 0xE0, 0x90, 0xE0] ++   -- A, B
  [0xF0, 0x80, 0x80, 0x80, 0xF0] ++ [0xE0, 0x90, 0x90, 0x90, 0xE0] ++   -- C, D
  [0xF0, 0x80, 0xF0, 0x80, 0xF0] ++ [0xF0, 0x80, 0xF0, 0x80, 0x80]      -- E, F

/-- What reset leaves at an address, and what an address the memory list does not name reads as: the glyph table,
then zero (R42, R66; the zero is the spec's decision D9). -/
def resetByte (a : Nat) : Byte := glyphs.getD a 0

end Sys2Proof.Machine
end

