-- ==== Sys2Proof/Machine/State.lean ====
section
/-! DEFINITION. The complete state of the engine (`10_state.md` R20), its reset values (R42), and the reasons a
cycle can stop (`60_exceptions.md` R210 to R214, R219). -/

namespace Sys2Proof.Machine

/-- MEM, the main memory (R39, R61): the cells that differ from what reset leaves, addresses strictly rising
(`Memory.wf`). Every address 0 to 4095 has a byte: one not listed reads as `resetByte`. -/
abbrev Memory := List Host.Cell

/-- FB, the framebuffer (R35): the numbers, in 0 to 2047, of the entries that are on, strictly rising
(`Framebuffer.wf`). Every other entry is off. -/
abbrev Framebuffer := List Nat

/-- The blocking-wait sub-state (R38). -/
inductive WaitState where
  /-- The last completed dispatch was not a waiting FX0A. -/
  | running
  /-- The last completed dispatch was an FX0A with X = `r` that found no key down. -/
  | awaitingKey (r : Reg)
deriving DecidableEq, Repr

/-- The state tuple of R20, and the key inputs as host-written state (R37 allows either form). -/
structure State where
  /-- MEM, 4096 bytes (R39). -/
  mem : Memory
  /-- V0 to VF, the general registers (R21). -/
  v : Vector Byte 16
  /-- I, the index register (R24). -/
  idx : Word
  /-- The program counter (R25). -/
  pc : Word
  /-- The stack pointer, a counter in 0 to 16 (R30). -/
  sp : Fin 17
  /-- STACK, the 16 call-site addresses (R31). -/
  stack : Vector Word 16
  /-- DT, the delay timer (R33). -/
  dt : Byte
  /-- ST, the sound timer (R33). -/
  st : Byte
  /-- FB, 64 x 32 one-bit pixels, entry `y * 64 + x` (R35). -/
  fb : Framebuffer
  /-- The blocking-wait sub-state (R38). -/
  wait : WaitState
  /-- KEY, the 16 key inputs of the cycle (R37): written by the host between cycles, never by the engine. -/
  keys : Vector Bool 16
deriving DecidableEq, Repr

/-- The state after reset: R42's table, memory with nothing listed (so the glyph table and zeros). -/
def State.reset : State where
  mem := []
  v := Vector.replicate 16 0
  idx := 0
  pc := 0x0200
  sp := 0
  stack := Vector.replicate 16 0
  dt := 0
  st := 0
  fb := []
  wait := .running
  keys := Vector.replicate 16 false

/-- The four fault conditions (R210), each with what R219's error record says of it: the address of the faulting
instruction, the fetched word, and the offending memory address. A fault leaves the state as it was (R218). -/
inductive Fault where
  /-- Raised by decode (the step) for a word that is no row of R96 (R211). Safe: the spec makes it the whole
  outcome of the cycle; for group 0 the decoder admits the fewest words (R97). -/
  | unrecognizedOpcode (pc word : Word)
  /-- Raised by 2NNN with `sp = 16` (R212). Safe: the spec makes it the whole outcome of the cycle. -/
  | stackOverflow (pc word : Word)
  /-- Raised by 00EE with `sp = 0` (R213). Safe: the spec makes it the whole outcome of the cycle. -/
  | stackUnderflow (pc word : Word)
  /-- Raised by the fetch (the step) when `pc > 4094`, with word 0, and by DXYN when a sprite byte lies above
  4095 (R214). Safe: the spec makes it the whole outcome of the cycle. -/
  | addressOutOfRange (pc word addr : Word)
deriving DecidableEq, Repr

/-- The reasons the model itself declines to go on. None is raised: every instruction has its meaning. -/
inductive Refusal where
  /-- Raised only by an arm of `exec` whose instruction has no meaning yet; there is none. Safe: it claims
  nothing about the hardware. -/
  | notModelled (mnemonic : String)
deriving DecidableEq, Repr

/-- The error record of a faulting cycle (R219). -/
structure ErrorRecord where
  code : Nat
  pc : Word
  word : Word
  addr : Word
deriving DecidableEq, Repr

/-- The result the cycle port returns (R231): `Ok` or the error record; the third outcome is the model's own. -/
inductive CycleResult where
  /-- The cycle completed. -/
  | ok
  /-- The cycle faulted. -/
  | error (record : ErrorRecord)
  /-- The model has no meaning for the instruction; no instruction is in this case. -/
  | refused (reason : Refusal)
deriving DecidableEq, Repr

/-- How a step ends. -/
abbrev Result := Host.Outcome State Fault Refusal

end Sys2Proof.Machine
end

