-- ==== Sys2Proof/Machine/Ops.lean ====
section
/-! DEFINITION. The named operations over memory, registers, the call stack, the framebuffer and the timers that
the meanings and the cycle are written with, and how a cycle ends. -/

namespace Sys2Proof.Machine

/-! ### Memory (`20_memory.md`) -/

/-- The byte memory holds at an address (R61). -/
def Memory.peek (m : Memory) (a : Nat) : Byte :=
  match m.find? (fun c => c.1 == a) with
  | some c => c.2
  | none => resetByte a

/-- Put a cell in its place among cells of rising addresses. -/
def Memory.insertCell (c : Host.Cell) : Memory → Memory
  | [] => [c]
  | d :: m => if c.1 < d.1 then c :: d :: m else d :: Memory.insertCell c m

/-- Store one byte; the list stays canonical. -/
def Memory.poke (m : Memory) (a : Nat) (b : Byte) : Memory :=
  let rest := m.filter (fun c => c.1 != a)
  if b = resetByte a then rest else Memory.insertCell (a, b) rest

/-- The canonical form: addresses strictly rising and below 4096, no cell equal to what its address reads as when
it is not listed. -/
abbrev Memory.wf (m : Memory) : Prop :=
  m.Pairwise (fun c d => c.1 < d.1) ∧ ∀ c ∈ m, c.1 < Config.memSize ∧ c.2 ≠ resetByte c.1

/-- The bounds check of an access of `n` bytes, `n` at least 1: none when it is inside memory, else the smallest
address of the access that is above 4095 (R62). -/
def memCheck (addr n : Nat) : Option Nat :=
  if Config.memSize < addr + n then some (max addr Config.memSize) else none

/-- `MemRead(addr, 1)`: the byte, or the offending address (R62). -/
def memRead1 (m : Memory) (addr : Nat) : Except Nat Byte :=
  match memCheck addr 1 with
  | some bad => .error bad
  | none => .ok (m.peek addr)

/-- `MemRead(addr, 2)`: big-endian, or the offending address (R62, R63). -/
def memRead2 (m : Memory) (addr : Nat) : Except Nat Word :=
  match memCheck addr 2 with
  | some bad => .error bad
  | none => .ok (wordOfBytes (m.peek addr) (m.peek (addr + 1)))

/-- Store consecutive bytes from an address on: the loader port's `MemWrite`s (R227); no instruction uses it. -/
def Memory.pokes (m : Memory) (a : Nat) : List Byte → Memory
  | [] => m
  | b :: bs => (m.poke a b).pokes (a + 1) bs

/-! ### General registers (`10_state.md` R21 to R23) -/

/-- `V[x]`. -/
def State.readV (s : State) (x : Reg) : Byte := s.v[x.val]

/-- `V[x] <- b`. No register is hardwired (R21). -/
def State.writeV (s : State) (x : Reg) (b : Byte) : State := { s with v := s.v.set x.val b }

/-! ### Single fields -/

/-- `pc <- p`. -/
def State.setPc (s : State) (p : Word) : State := { s with pc := p }

/-- `wait <- q`. -/
def State.setWait (s : State) (q : WaitState) : State := { s with wait := q }

/-- `I <- w`. -/
def State.setIdx (s : State) (w : Word) : State := { s with idx := w }

/-- The framebuffer replaced as a whole. -/
def State.setFb (s : State) (f : Framebuffer) : State := { s with fb := f }

/-- The stack's entries and pointer replaced. -/
def State.setStack (s : State) (entries : Vector Word 16) (sp : Fin 17) : State :=
  { s with stack := entries, sp := sp }

/-! ### The call stack (R30 to R32) -/

/-- `STACK[k]`. -/
def State.readStack (s : State) (k : Fin 16) : Word := s.stack[k.val]

/-- `STACK[sp] <- w; sp <- sp + 1`, or none when the stack is full (R142, R212). -/
def State.pushCall (s : State) (w : Word) : Option State :=
  if h : s.sp.val < 16 then
    some (s.setStack (s.stack.set s.sp.val w) ⟨s.sp.val + 1, by omega⟩)
  else none

/-- `sp <- sp - 1` and the entry it then indexes, or none when the stack is empty (R140, R213). -/
def State.popCall (s : State) : Option (Word × State) :=
  if h : 0 < s.sp.val then
    some (s.readStack ⟨s.sp.val - 1, by omega⟩, s.setStack s.stack ⟨s.sp.val - 1, by omega⟩)
  else none

/-! ### The framebuffer (R35, R36) -/

/-- `FB[k] = 1`. -/
def Framebuffer.on (f : Framebuffer) (k : Nat) : Bool := f.contains k

/-- Put an entry number in its place among rising numbers. -/
def Framebuffer.insertEntry (k : Nat) : Framebuffer → Framebuffer
  | [] => [k]
  | j :: f => if k < j then k :: j :: f else j :: Framebuffer.insertEntry k f

/-- `FB[k] <- bit`. -/
def Framebuffer.put (f : Framebuffer) (k : Nat) (bit : Bool) : Framebuffer :=
  let rest := f.filter (fun j => j != k)
  if bit then Framebuffer.insertEntry k rest else rest

/-- The canonical form: entry numbers strictly rising, each below 2048. -/
abbrev Framebuffer.wf (f : Framebuffer) : Prop :=
  f.Pairwise (· < ·) ∧ ∀ k ∈ f, k < Config.fbSize

/-! ### How a dispatch ends -/

/-- A completed dispatch: it writes `pc`, and `wait` becomes `Running` (R38, R123). -/
def finish (newPc : Word) (s : State) : Result := .next ((s.setPc newPc).setWait .running)

/-- A completed dispatch that leaves `pc` where it is and waits for a key (R123, R201). -/
def finishWaiting (x : Reg) (s : State) : Result := .next (s.setWait (.awaitingKey x))

/-- Raising a fault (R218, R221): the cycle ends with the record and nothing is written. There is no trap entry:
no vector, no saved `pc`, no mode; and no return from one (R222). -/
def raise (f : Fault) : Result := .fault f

/-! ### Pieces of the cycle (`40_cycle.md`) -/

/-- Fetch: `MemRead(pc, 2)` (R121). -/
def fetch (s : State) : Except Nat Word := memRead2 s.mem s.pc.toNat

/-- One timer's tick: down by 1 when above 0, never below (R126). -/
def tick (t : Byte) : Byte := if t = 0 then 0 else t - 1

/-- The Timer Unit, after a completed dispatch: both timers tick unless the dispatch left the engine waiting for a
key (R126). -/
def timerUpdate (s : State) : State :=
  match s.wait with
  | .running => { s with dt := tick s.dt, st := tick s.st }
  | .awaitingKey _ => s

/-! ### The error record (R216, R219) -/

/-- The code of a fault (R216). -/
def Fault.code : Fault → Nat
  | .unrecognizedOpcode _ _ => 1
  | .stackOverflow _ _ => 2
  | .stackUnderflow _ _ => 3
  | .addressOutOfRange _ _ _ => 4

/-- The error record of a fault (R219): `addr` is 0 where there is no offending memory address. -/
def Fault.record (f : Fault) : ErrorRecord :=
  match f with
  | .unrecognizedOpcode pc w => ⟨f.code, pc, w, 0⟩
  | .stackOverflow pc w => ⟨f.code, pc, w, 0⟩
  | .stackUnderflow pc w => ⟨f.code, pc, w, 0⟩
  | .addressOutOfRange pc w a => ⟨f.code, pc, w, a⟩

/-! ### Placing one instruction for the host -/

/-- Store a word where the next fetch reads it, high byte first. Where `pc` is beyond the last address a fetch can
start at, `pc` is put to the program base first, since no fetch there can succeed. -/
def placeWord (s : State) (w : Word) : State :=
  let s' := if s.pc.toNat + 2 ≤ Config.memSize then s else s.setPc (BitVec.ofNat 16 Config.progBase)
  { s' with mem := s'.mem.pokes s'.pc.toNat [highByte w, lowByte w] }

end Sys2Proof.Machine
end

