-- ==== Sys2Proof/Machine/Flags.lean ====
section
/-! DEFINITION. Every value VF is given as a flag (`10_state.md` R28). -/

namespace Sys2Proof.Machine

/-- A condition as a flag byte, 1 or 0. -/
def flagOf (c : Bool) : Byte := if c then 1 else 0

/-- 8XY4: the carry out of bit 7, `a + b > 255` (R174). -/
def carryFlag (a b : Byte) : Byte := flagOf (decide (255 < a.toNat + b.toNat))

/-- 8XY5: no borrow, `a >= b` (R175). -/
def noBorrowFlag (a b : Byte) : Byte := flagOf (decide (b.toNat ≤ a.toNat))

/-- 8XY7: strictly greater, `a > b` (R177). -/
def greaterFlag (a b : Byte) : Byte := flagOf (decide (b.toNat < a.toNat))

/-- 8XY6: the bit shifted out on the right, 0 or 1 (R176). -/
def shiftRightFlag (b : Byte) : Byte := b &&& 0x01

/-- 8XYE: the unshifted mask of the top bit, 0x00 or 0x80, not 0 or 1 (R178). -/
def shiftLeftFlag (b : Byte) : Byte := b &&& 0x80

/-- DXYN: 1 when a set sprite bit met a set pixel (R191). -/
def collisionFlag (hit : Bool) : Byte := flagOf hit

end Sys2Proof.Machine
end

