-- ==== Sys2Proof/Machine/Operands.lean ====
section
/-! DEFINITION. How instructions form their operands: zero extension (`30_encoding.md` R93), the offset jump's
target (R143), the sprite's bytes, bits and pixels (`45_display.md` R191, R192), the key scan (R201). -/

namespace Sys2Proof.Machine

/-- `zext_16(NNN)` (R93). -/
def zextAddr (nnn : Addr) : Word := nnn.setWidth 16

/-- `zext_16(V[x])` (R93). -/
def zextByte (b : Byte) : Word := b.setWidth 16

/-- BNNN's target for either value of JUMP_OFFSET: the sum modulo 65536 (R143), or the literal form over the whole
word (`93_implementation_defined.md` G4). -/
def jumpTarget (mode : JumpOffset) (nnn : Addr) (v0 : Byte) : Word :=
  match mode with
  | .sum => zextAddr nnn + zextByte v0
  | .literal => encode (.jpV0Nnn nnn) &&& (0x0FFF#16 + zextByte v0)

/-- Where the first byte of an `n`-row sprite outside memory is, if any (R191): no byte is read for `n = 0`. -/
def spriteFault (s : State) (n : Nat) : Option Nat :=
  if n = 0 then none else memCheck s.idx.toNat n

/-- The address of a sprite row's byte, without wrap-around (R68). -/
def rowAddr (s : State) (row : Nat) : Nat := s.idx.toNat + row

/-- The `n` bytes of the sprite, in ascending row order (R68). -/
def spriteBytes (s : State) (n : Nat) : List Byte := (List.range n).map (fun row => s.mem.peek (rowAddr s row))

/-- Column `col` of a sprite byte: column 0 is bit 7 (R191). -/
def spriteBit (b : Byte) (col : Nat) : Bool := b.getLsbD (7 - col)

/-- The framebuffer entry of a sprite's pixel, or none where it is dropped (R191, R192). -/
def pixelTarget (edge : DrawEdge) (x0 y0 : Byte) (row col : Nat) : Option Nat :=
  match edge with
  | .wrap =>
    some ((y0.toNat + row) % Config.fbHeight * Config.fbWidth + (x0.toNat + col) % Config.fbWidth)
  | .clip =>
    if x0.toNat + col < Config.fbWidth ∧ y0.toNat + row < Config.fbHeight then
      some ((y0.toNat + row) * Config.fbWidth + (x0.toNat + col))
    else none

/-- The smallest key index that is down, scanning 0 to 15 (R201). -/
def lowestKey (keys : Vector Bool 16) : Option (Fin 16) := (List.finRange 16).find? (fun k => keys[k.val])

end Sys2Proof.Machine
end

