-- ==== Sys2Proof/Machine/Alu.lean ====
section
/-! DEFINITION. Arithmetic and logic (`44_alu.md`): 8XY0 to 8XY7, 8XYE. Steps run in the order the rule lists them
and each reads the registers as the step before left them (R180). -/

namespace Sys2Proof.Machine

/-- 8XY0 `LD Vx, Vy` (R170). -/
def execLdVxVy (x y : Reg) (s : State) : Result := finish (s.pc + 2) (s.writeV x (s.readV y))

/-- 8XY1 `OR Vx, Vy` (R171). -/
def execOr (x y : Reg) (s : State) : Result := finish (s.pc + 2) (s.writeV x (s.readV x ||| s.readV y))

/-- 8XY2 `AND Vx, Vy` (R172). -/
def execAnd (x y : Reg) (s : State) : Result := finish (s.pc + 2) (s.writeV x (s.readV x &&& s.readV y))

/-- 8XY3 `XOR Vx, Vy` (R173). -/
def execXor (x y : Reg) (s : State) : Result := finish (s.pc + 2) (s.writeV x (s.readV x ^^^ s.readV y))

/-- 8XY4 `ADD Vx, Vy` (R174): the sum, then the carry of that sum into VF. -/
def execAddVxVy (x y : Reg) (s : State) : Result :=
  let a := s.readV x
  let b := s.readV y
  finish (s.pc + 2) ((s.writeV x (a + b)).writeV vf (carryFlag a b))

/-- 8XY5 `SUB Vx, Vy` (R175): the difference, then the no-borrow of that subtraction into VF. -/
def execSub (x y : Reg) (s : State) : Result :=
  let a := s.readV x
  let b := s.readV y
  finish (s.pc + 2) ((s.writeV x (a - b)).writeV vf (noBorrowFlag a b))

/-- 8XY6 `SHR Vx, Vy` (R176): flag, then `V[Y]` shifted in place, then the copy to `V[X]`. -/
def execShr (x y : Reg) (s : State) : Result :=
  let s1 := s.writeV vf (shiftRightFlag (s.readV y))
  let s2 := s1.writeV y (s1.readV y >>> 1)
  finish (s.pc + 2) (s2.writeV x (s2.readV y))

/-- 8XY7 `SUBN Vx, Vy` (R177): flag first, then the subtraction reads the registers after the flag write. -/
def execSubn (x y : Reg) (s : State) : Result :=
  let s1 := s.writeV vf (greaterFlag (s.readV y) (s.readV x))
  finish (s.pc + 2) (s1.writeV x (s1.readV y - s1.readV x))

/-- 8XYE `SHL Vx, Vy` (R178): flag 0x80 or 0x00, then `V[Y]` shifted in place, then the copy to `V[X]`. -/
def execShl (x y : Reg) (s : State) : Result :=
  let s1 := s.writeV vf (shiftLeftFlag (s.readV y))
  let s2 := s1.writeV y (s1.readV y <<< 1)
  finish (s.pc + 2) (s2.writeV x (s2.readV y))

end Sys2Proof.Machine
end

