-- ==== Sys2Proof/Machine/Control.lean ====
section
/-! DEFINITION. Control transfer (`41_control_flow.md`): 00EE, 1NNN, 2NNN, BNNN. -/

namespace Sys2Proof.Machine

/-- 00EE `RET` (R140). -/
def execRet (s : State) : Result :=
  match s.popCall with
  | none => raise (.stackUnderflow s.pc (encode .ret))
  | some (site, t) => finish (site + 2) t

/-- 1NNN `JP NNN` (R141). -/
def execJp (nnn : Addr) (s : State) : Result := finish (zextAddr nnn) s

/-- 2NNN `CALL NNN` (R142): the pushed value is the address of the CALL itself. -/
def execCall (nnn : Addr) (s : State) : Result :=
  match s.pushCall s.pc with
  | none => raise (.stackOverflow s.pc (encode (.call nnn)))
  | some t => finish (zextAddr nnn) t

/-- BNNN `JP V0, NNN` (R143). -/
def execJpV0Nnn (nnn : Addr) (s : State) : Result := finish (jumpTarget jumpOffset nnn (s.readV 0)) s

end Sys2Proof.Machine
end

