-- ==== Sys2Proof/Machine/Display.lean ====
section
/-! DEFINITION. Display (`45_display.md`): 00E0, DXYN. -/

namespace Sys2Proof.Machine

/-- What a draw carries from pixel to pixel: the framebuffer, and whether a set bit has met a set pixel. -/
abbrev Canvas := Framebuffer × Bool

/-- One pixel of a draw: the collision test on the framebuffer as it stands, then the overwrite (R191). -/
def drawPixel (edge : DrawEdge) (x0 y0 : Byte) (row : Nat) (b : Byte) (c : Canvas) (col : Nat) : Canvas :=
  match pixelTarget edge x0 y0 row col with
  | some k => (c.1.put k (spriteBit b col), c.2 || (spriteBit b col && c.1.on k))
  | none => c

/-- One row of a draw: columns 0 to 7, ascending (R191). -/
def drawRow (edge : DrawEdge) (x0 y0 : Byte) (row : Nat) (b : Byte) (c : Canvas) : Canvas :=
  (List.range 8).foldl (drawPixel edge x0 y0 row b) c

/-- The rows of a draw from row number `row` on, ascending (R191). -/
def drawRows (edge : DrawEdge) (x0 y0 : Byte) (row : Nat) : List Byte → Canvas → Canvas
  | [], c => c
  | b :: bs, c => drawRows edge x0 y0 (row + 1) bs (drawRow edge x0 y0 row b c)

/-- DXYN's effect once its addresses are checked, for either value of DRAW_EDGE (R191, R192): VF is reset, the
coordinates are read (R195), the rows are drawn, VF becomes the collision flag. -/
def drawSprite (edge : DrawEdge) (x y : Reg) (n : Nat) (s : State) : State :=
  let s1 := s.writeV vf 0
  let c := drawRows edge (s1.readV x) (s1.readV y) 0 (spriteBytes s1 n) (s1.fb, false)
  (s1.setFb c.1).writeV vf (collisionFlag c.2)

/-- 00E0 `CLS` (R190). -/
def execCls (s : State) : Result := finish (s.pc + 2) (s.setFb [])

/-- DXYN `DRW Vx, Vy, N` (R191): every sprite address is checked before anything is written (R77). -/
def execDrw (x y : Reg) (n : Nat) (s : State) : Result :=
  match spriteFault s n with
  | some bad => raise (.addressOutOfRange s.pc (encode (.drw x y n)) (BitVec.ofNat 16 bad))
  | none => finish (s.pc + 2) (drawSprite drawEdge x y n s)

end Sys2Proof.Machine
end

