-- ==== Sys2Proof/Machine/Load.lean ====
section
/-! DEFINITION. Immediate loads and add (`43_load_add.md`): 6XNN, 7XNN, ANNN. -/

namespace Sys2Proof.Machine

/-- 6XNN `LD Vx, NN` (R160). -/
def execLdVxNn (x : Reg) (nn : Byte) (s : State) : Result := finish (s.pc + 2) (s.writeV x nn)

/-- 7XNN `ADD Vx, NN` (R161): modulo 256, no flag. -/
def execAddVxNn (x : Reg) (nn : Byte) (s : State) : Result := finish (s.pc + 2) (s.writeV x (s.readV x + nn))

/-- ANNN `LD I, NNN` (R162). -/
def execLdINnn (nnn : Addr) (s : State) : Result := finish (s.pc + 2) (s.setIdx (zextAddr nnn))

end Sys2Proof.Machine
end

