-- ==== Sys2Proof/Machine/Skip.lean ====
section
/-! DEFINITION. Conditional skips (`42_skip.md`): 3XNN, 4XNN, 5XY0, 9XY0. -/

namespace Sys2Proof.Machine

/-- The law of the four skips (R154): `pc + 4` when the condition holds, else `pc + 2`. -/
def skipWhen (c : Bool) (s : State) : Result := finish (if c then s.pc + 4 else s.pc + 2) s

/-- 3XNN `SE Vx, NN` (R150). -/
def execSeVxNn (x : Reg) (nn : Byte) (s : State) : Result := skipWhen (s.readV x == nn) s

/-- 4XNN `SNE Vx, NN` (R151). -/
def execSneVxNn (x : Reg) (nn : Byte) (s : State) : Result := skipWhen (s.readV x != nn) s

/-- 5XY0 `SE Vx, Vy` (R152). -/
def execSeVxVy (x y : Reg) (s : State) : Result := skipWhen (s.readV x == s.readV y) s

/-- 9XY0 `SNE Vx, Vy` (R153). -/
def execSneVxVy (x y : Reg) (s : State) : Result := skipWhen (s.readV x != s.readV y) s

end Sys2Proof.Machine
end

