-- ==== Sys2Proof/Machine/TimerKey.lean ====
section
/-! DEFINITION. Timer read and key wait (`46_timer_key.md`): FX07, FX0A. -/

namespace Sys2Proof.Machine

/-- FX07 `LD Vx, DT` (R200): the value before this cycle's timer update (R130). -/
def execLdVxDt (x : Reg) (s : State) : Result := finish (s.pc + 2) (s.writeV x s.dt)

/-- FX0A `LD Vx, K` (R201): wait while no key is down, else the lowest key's index. -/
def execLdVxK (x : Reg) (s : State) : Result :=
  match lowestKey s.keys with
  | none => finishWaiting x s
  | some k => finish (s.pc + 2) (s.writeV x (BitVec.ofNat 8 k.val))

end Sys2Proof.Machine
end

