-- ==== Sys2Proof/Machine/Cycle.lean ====
section
/-! DEFINITION. The cycle (`40_cycle.md` R120): fetch, decode, dispatch, timer update. -/

namespace Sys2Proof.Machine

/-- The end of a cycle: the timer update follows a completed dispatch and no other (R126, R129). -/
def afterDispatch : Result → Result
  | .next t => .next (timerUpdate t)
  | .fault f => .fault f
  | .refused r => .refused r

/-- One cycle (R120). The checks run in the order fetch, decode, dispatch (R220). -/
def cycle (s : State) : Result :=
  match fetch s with
  | .error bad => raise (.addressOutOfRange s.pc 0 (BitVec.ofNat 16 bad))
  | .ok w =>
    match decode w with
    | .error _ => raise (.unrecognizedOpcode s.pc w)
    | .ok i => afterDispatch (exec i s)

end Sys2Proof.Machine
end

