-- ==== Sys2Proof/Machine/Ports.lean ====
section
/-! DEFINITION. The six ports between the engine and its host (`60_exceptions.md` R226 to R231), used only
between cycles. The reset port is `State.reset`. -/

namespace Sys2Proof.Machine

/-- The loader port (R227): image byte `k` goes to address `0x200 + k`. An image longer than 3584 bytes has no
step (R71; `93_implementation_defined.md` U7). -/
def loadImage (image : List Byte) (s : State) : Option State :=
  if imageFits image then some { s with mem := s.mem.pokes Config.progBase image } else none

/-- The key input port (R228): the host writes all 16 slots; any combination may appear in any cycle. -/
def State.withKeys (s : State) (keys : Vector Bool 16) : State := { s with keys := keys }

/-- The framebuffer read port (R229): entry `k`, a byte of value 0 or 1. -/
def framebufferPort (s : State) (k : Fin 2048) : Byte := if s.fb.on k.val then 1 else 0

/-- The timer read port (R230): delay, then sound. -/
def timerPort (s : State) : Byte × Byte := (s.dt, s.st)

/-- The cycle port (R231): runs one cycle and returns its result; a faulting cycle leaves the state as it was and
returns the error record (R218, R219). -/
def cyclePort (s : State) : CycleResult × State :=
  match step s with
  | .next t => (.ok, t)
  | .fault f => (.error f.record, s)
  | .refused r => (.refused r, s)

end Sys2Proof.Machine
end

