-- ==== Sys2Proof/Safety.lean ====
section
/-! DEFINITION. The terms claims about the engine are stated in: well-formed states, what a dispatch keeps, the
moves of the host and the states they reach, the bounds that hold from reset, the end of a run. -/

namespace Sys2Proof.Machine

/-! ### Well-formed states -/

/-- A well-formed state (R43): every field but the two lists is bounded by its type, so what is left to say is that
memory and the framebuffer stand in their canonical form. -/
abbrev State.wf (s : State) : Prop := s.mem.wf ∧ s.fb.wf

/-! ### What a dispatch keeps, said through the reads -/

/-- Every general register but those listed holds what it held. -/
def KeepsV (except : List Reg) (s t : State) : Prop := ∀ r, r ∉ except → t.readV r = s.readV r

/-- Every byte of memory reads as before. -/
def KeepsMemory (s t : State) : Prop := ∀ a, t.mem.peek a = s.mem.peek a

/-- Every framebuffer entry reads as before. -/
def KeepsScreen (s t : State) : Prop := ∀ k, t.fb.on k = s.fb.on k

/-- The stack pointer and every stack entry are as before. -/
def KeepsStack (s t : State) : Prop := t.sp = s.sp ∧ ∀ k, t.readStack k = s.readStack k

/-- Both timers and all key inputs are as before. -/
def KeepsTimersAndKeys (s t : State) : Prop := t.dt = s.dt ∧ t.st = s.st ∧ t.keys = s.keys

/-- A dispatch that completed and may have changed the listed general registers and `pc`, and nothing else but
`wait`, which is `Running`. -/
def OnlyRegisters (written : List Reg) (s t : State) : Prop :=
  KeepsV written s t ∧ t.idx = s.idx ∧ KeepsStack s t ∧ KeepsScreen s t ∧ KeepsMemory s t ∧
    KeepsTimersAndKeys s t ∧ t.wait = .running

/-- A dispatch that completed and may have changed the index register and `pc`, and nothing else but `wait`, which
is `Running`. -/
def OnlyIndex (s t : State) : Prop :=
  KeepsV [] s t ∧ KeepsStack s t ∧ KeepsScreen s t ∧ KeepsMemory s t ∧ KeepsTimersAndKeys s t ∧ t.wait = .running

/-- A dispatch that completed and may have changed the call stack and `pc`, and nothing else but `wait`, which is
`Running`. -/
def OnlyStack (s t : State) : Prop :=
  KeepsV [] s t ∧ t.idx = s.idx ∧ KeepsScreen s t ∧ KeepsMemory s t ∧ KeepsTimersAndKeys s t ∧ t.wait = .running

/-- A dispatch that completed and may have changed the framebuffer, the listed general registers and `pc`, and
nothing else but `wait`, which is `Running`. -/
def OnlyScreen (written : List Reg) (s t : State) : Prop :=
  KeepsV written s t ∧ t.idx = s.idx ∧ KeepsStack s t ∧ KeepsMemory s t ∧ KeepsTimersAndKeys s t ∧ t.wait = .running

/-- No key is down. -/
def NoKeyDown (s : State) : Prop := ∀ k : Fin 16, s.keys[k.val] = false

/-- `k` is the smallest index of a key that is down. -/
def LowestKeyDown (s : State) (k : Fin 16) : Prop :=
  s.keys[k.val] = true ∧ ∀ j : Fin 16, j < k → s.keys[j.val] = false

/-! ### Words of R92's formats, as numbers -/

/-- The word `G NNN`. -/
def wordA (g : Nat) (nnn : Addr) : Word := BitVec.ofNat 16 (g * 4096 + nnn.toNat)

/-- The word `G X NN`. -/
def wordRI (g : Nat) (x : Reg) (nn : Nat) : Word := BitVec.ofNat 16 (g * 4096 + x.val * 256 + nn)

/-- The word `G X Y N`. -/
def wordRR (g : Nat) (x y : Reg) (n : Nat) : Word := BitVec.ofNat 16 (g * 4096 + x.val * 256 + y.val * 16 + n)

/-- The word memory holds where the next cycle fetches, high byte first. -/
def nextWord (s : State) : Word := wordOfBytes (s.mem.peek s.pc.toNat) (s.mem.peek (s.pc.toNat + 1))

/-! ### Sprites -/

/-- The column or row a draw starts at (R195): VF has been reset when it is read. -/
def drawOrigin (s : State) (r : Reg) : Nat := if r = vf then 0 else (s.readV r).toNat

/-- Bit `7 - col` of sprite row `row` (R191). -/
def spriteAt (s : State) (row col : Nat) : Bool := (s.mem.peek (s.idx.toNat + row)).getLsbD (7 - col)

/-- The framebuffer entry of the sprite's pixel `(row, col)` under `wrap` (R191). -/
def wrapEntry (s : State) (x y : Reg) (row col : Nat) : Nat :=
  (drawOrigin s y + row) % 32 * 64 + (drawOrigin s x + col) % 64

/-! ### The registers an instruction writes -/

/-- The general registers an instruction may write (R20, R23, R28): its destinations, and VF for the six that use
it as a flag. -/
def mayWriteV : Instr → List Reg
  | .cls => []
  | .ret => []
  | .jp _ => []
  | .call _ => []
  | .seVxNn _ _ => []
  | .sneVxNn _ _ => []
  | .seVxVy _ _ => []
  | .ldVxNn x _ => [x]
  | .addVxNn x _ => [x]
  | .ldVxVy x _ => [x]
  | .or x _ => [x]
  | .and x _ => [x]
  | .xor x _ => [x]
  | .addVxVy x _ => [x, vf]
  | .sub x _ => [x, vf]
  | .shr x y => [x, y, vf]
  | .subn x _ => [x, vf]
  | .shl x y => [x, y, vf]
  | .sneVxVy _ _ => []
  | .ldINnn _ => []
  | .jpV0Nnn _ => []
  | .drw _ _ _ => [vf]
  | .ldVxDt x => [x]
  | .ldVxK x => [x]

/-! ### Runs: the moves of the host (R243, R262) -/

/-- The states the engine can be in between cycles: reset with an image loaded, then any sequence of writing the
key inputs and invoking a cycle that completes. The host has no other move (R262). -/
inductive Reachable : State → Prop where
  /-- Reset, then the loader, before the first cycle (R243). -/
  | loaded {image : List Byte} {s : State} (h : loadImage image State.reset = some s) : Reachable s
  /-- The input collaborator writes the keys between cycles (R228). -/
  | keys {s : State} (h : Reachable s) (keys : Vector Bool 16) : Reachable (s.withKeys keys)
  /-- A cycle completes (R231). -/
  | cycle {s t : State} (h : Reachable s) (hs : step s = .next t) : Reachable t

/-- The bounds that hold from reset: `I` at most 0x0FFF (R24), `pc` at most 0x10FE (R27), every live stack entry at
most 4094 (R32), memory and framebuffer canonical. -/
abbrev AddressBounds (s : State) : Prop :=
  s.wf ∧ s.idx.toNat ≤ 0x0FFF ∧ s.pc.toNat ≤ 0x10FE ∧
    ∀ k : Fin 16, k.val < s.sp.val → (s.readStack k).toNat ≤ 4094

/-! ### States that differ only in what cannot be seen -/

/-- Two states that agree on everything but stack entries at `sp` and above, which are dead (R31). -/
def AgreeOnLive (s t : State) : Prop :=
  t = { s with stack := t.stack } ∧ ∀ k : Fin 16, k.val < s.sp.val → t.readStack k = s.readStack k

/-- Two results that agree: the same fault or refusal, or next states that agree on everything live. -/
def ResultsAgree : Result → Result → Prop
  | .next s, .next t => AgreeOnLive s t
  | .fault f, .fault g => f = g
  | .refused r, .refused q => r = q
  | _, _ => False

/-- A state with another value in the sound timer. -/
def State.withSound (s : State) (b : Byte) : State := { s with st := b }

/-! ### The end of a run (R258) -/

/-- The spec's convention for a run that has ended normally: `pc` addresses a jump to itself and `wait` is
`Running`. -/
def Ended (s : State) : Prop :=
  s.wait = .running ∧ ∃ nnn : Addr, zextAddr nnn = s.pc ∧ fetch s = .ok (encode (.jp nnn))

end Sys2Proof.Machine
end

