-- ==== Sys2Proof/Certificates/Slice0/Obligations.lean ====
section
/-! DEFINITION. The statements about the engine that are left to the provers. A docstring names the rule a statement
formalises; where a clause rests on a decision the spec marks as its own, it says so. -/

open Sys2Proof Sys2Proof.Machine

/-! ### Encoding -/

/-- The worked encodings of R104: fields, word, bytes and decoding of each. -/
def Obligations.WorkedEncodingsDecode : Prop :=
  (fieldG 0x632A = 6 ∧ fieldX 0x632A = 3 ∧ fieldNN 0x632A = 0x2A ∧ encode (.ldVxNn 3 0x2A) = 0x632A ∧
    encodeBytes (.ldVxNn 3 0x2A) = [0x63, 0x2A] ∧ decode 0x632A = .ok (.ldVxNn 3 0x2A)) ∧
  (fieldG 0x8AB4 = 8 ∧ fieldX 0x8AB4 = 0xA ∧ fieldY 0x8AB4 = 0xB ∧ fieldN 0x8AB4 = 4 ∧
    encode (.addVxVy 0xA 0xB) = 0x8AB4 ∧ decode 0x8AB4 = .ok (.addVxVy 0xA 0xB)) ∧
  (fieldG 0xD125 = 0xD ∧ fieldX 0xD125 = 1 ∧ fieldY 0xD125 = 2 ∧ fieldN 0xD125 = 5 ∧
    encode (.drw 1 2 5) = 0xD125 ∧ decode 0xD125 = .ok (.drw 1 2 5)) ∧
  (encode (.jpV0Nnn 0x300) = 0xB300 ∧ decode 0xB300 = .ok (.jpV0Nnn 0x300)) ∧
  (encode (.ldVxK 0xF) = 0xFF0A ∧ decode 0xFF0A = .ok (.ldVxK 0xF)) ∧
  (encode (.seVxVy 0 0) = 0x5000 ∧ decode 0x5000 = .ok (.seVxVy 0 0)) ∧
  decode 0x5001 = .error .group5

/-- One word of each of the 24 rows of R96, assembled by R92, decodes to the row's instruction. -/
def Obligations.OneWordOfEachRowDecodes : Prop :=
  decode 0x00E0 = .ok .cls ∧ decode 0x00EE = .ok .ret ∧ decode 0x1204 = .ok (.jp 0x204) ∧
  decode 0x220A = .ok (.call 0x20A) ∧ decode 0x3FFE = .ok (.seVxNn 0xF 0xFE) ∧
  decode 0x4211 = .ok (.sneVxNn 2 0x11) ∧ decode 0x5120 = .ok (.seVxVy 1 2) ∧
  decode 0x632A = .ok (.ldVxNn 3 0x2A) ∧ decode 0x70FF = .ok (.addVxNn 0 0xFF) ∧
  decode 0x8120 = .ok (.ldVxVy 1 2) ∧ decode 0x8121 = .ok (.or 1 2) ∧ decode 0x8122 = .ok (.and 1 2) ∧
  decode 0x8123 = .ok (.xor 1 2) ∧ decode 0x8AB4 = .ok (.addVxVy 0xA 0xB) ∧ decode 0x8125 = .ok (.sub 1 2) ∧
  decode 0x8126 = .ok (.shr 1 2) ∧ decode 0x8127 = .ok (.subn 1 2) ∧ decode 0x812E = .ok (.shl 1 2) ∧
  decode 0x9120 = .ok (.sneVxVy 1 2) ∧ decode 0xA210 = .ok (.ldINnn 0x210) ∧
  decode 0xB206 = .ok (.jpV0Nnn 0x206) ∧ decode 0xDAB2 = .ok (.drw 0xA 0xB 2) ∧
  decode 0xF107 = .ok (.ldVxDt 1) ∧ decode 0xF00A = .ok (.ldVxK 0)

/-- Decode of encode (R92, R96): the word of every well-formed instruction decodes to it, no operand bit dropped. -/
def Obligations.DecodeOfEncodeIsTheInstruction : Prop :=
  ∀ i : Instr, i.wf = true → decode (encode i) = .ok i

/-- Encode of decode (R91, R92, R96): a word that decodes is the word of its instruction, and that instruction is
well-formed, so no two words decode to one instruction and no bit of a word is ignored. -/
def Obligations.EncodeOfDecodeIsTheWord : Prop :=
  ∀ (w : Word) (i : Instr), decode w = .ok i → encode i = w ∧ i.wf = true

/-- R99's list of the unrecognised words, exactly. The clause on group 0 is the spec's decision D7. -/
def Obligations.RejectsExactlyTheUnrecognisedWords : Prop :=
  ∀ w : Word, (∃ r, decode w = .error r) ↔
    (w.toNat / 4096 = 0 ∧ w ≠ 0x00E0 ∧ w ≠ 0x00EE) ∨
    (w.toNat / 4096 = 5 ∧ w.toNat % 16 ≠ 0) ∨
    (w.toNat / 4096 = 8 ∧ w.toNat % 16 ∈ [8, 9, 10, 11, 12, 13, 15]) ∨
    (w.toNat / 4096 = 9 ∧ w.toNat % 16 ≠ 0) ∨
    w.toNat / 4096 = 12 ∨ w.toNat / 4096 = 14 ∨
    (w.toNat / 4096 = 15 ∧ w.toNat % 256 ≠ 0x07 ∧ w.toNat % 256 ≠ 0x0A)

/-- R96's table of matches and masks selects what the decoder decodes: a word that decodes matches one row and no
other, the row of its instruction; a word that is rejected matches none. -/
def Obligations.DecoderAgreesWithTheOpcodeTable : Prop :=
  opcodeTable.length = 24 ∧
  (∀ (w : Word) (i : Instr), decode w = .ok i →
    ∃ r ∈ opcodeTable, r.matchesWord w = true ∧ r.mnemonic = i.mnemonic ∧
      ∀ q ∈ opcodeTable, q.matchesWord w = true → q = r) ∧
  (∀ (w : Word) (e : Reject), decode w = .error e → ∀ r ∈ opcodeTable, r.matchesWord w = false)

/-! ### Reset -/

/-- R42's table of reset values. `sp`, `STACK`, the timers, the framebuffer, `wait` and the keys are the spec's
decision D8, the zero fill its decision D9 (log entry 3); the glyph bytes are whatever `glyphs` is (log entry 2). -/
def Obligations.ResetValues : Prop :=
  (∀ r, State.reset.readV r = 0) ∧ State.reset.idx = 0 ∧ State.reset.pc = 0x0200 ∧ State.reset.sp = 0 ∧
  (∀ k, State.reset.readStack k = 0) ∧ State.reset.dt = 0 ∧ State.reset.st = 0 ∧
  (∀ k, State.reset.fb.on k = false) ∧ State.reset.wait = .running ∧ NoKeyDown State.reset ∧
  glyphs.length = 80 ∧ (∀ a (h : a < glyphs.length), State.reset.mem.peek a = glyphs[a]) ∧
  (∀ a, 80 ≤ a → State.reset.mem.peek a = 0)

/-- R241: the entry point after reset is 0x0200, the first cycle fetches the word at 0x200 and 0x201, and the engine
starts with `wait = Running`, `sp = 0` and both timers 0. -/
def Obligations.EntryPointAfterReset : Prop :=
  State.reset.pc = 0x0200 ∧
  fetch State.reset = .ok (wordOfBytes (State.reset.mem.peek 0x200) (State.reset.mem.peek 0x201)) ∧
  State.reset.wait = .running ∧ State.reset.sp = 0 ∧ State.reset.dt = 0 ∧ State.reset.st = 0

/-- R242: with no program loaded the first cycle fetches 0x0000 and faults. Rests on the spec's decisions D7 and D9
(log entries 3 and 5). -/
def Obligations.FirstCycleWithNoProgramFaults : Prop :=
  fetch State.reset = .ok 0x0000 ∧ step State.reset = .fault (.unrecognizedOpcode 0x0200 0x0000)

/-- The bounds that every step keeps hold at reset (R24, R27, R32). That memory and framebuffer are canonical is said
of this model's own form (log entry 17). -/
def Obligations.AddressBoundsAtReset : Prop := AddressBounds State.reset

/-! ### Memory and fetch -/

/-- R62: `MemRead(addr, 1)` and `MemRead(addr, 2)`: the bytes, the lower address in the high bits, or the smallest
address of the access above 4095; an address is never reduced. -/
def Obligations.MemReadReturnsBytesOrTheOffendingAddress : Prop :=
  ∀ (m : Memory) (a : Nat),
    (a ≤ 4095 → memRead1 m a = .ok (m.peek a)) ∧
    (a + 1 ≤ 4095 → ∃ w, memRead2 m a = .ok w ∧ w.toNat = (m.peek a).toNat * 256 + (m.peek (a + 1)).toNat) ∧
    (4095 < a → memRead1 m a = .error a) ∧
    (4095 < a + 1 → ∃ bad, memRead2 m a = .error bad ∧ 4095 < bad ∧ (bad = a ∨ bad = a + 1) ∧
      ∀ c, a ≤ c → 4095 < c → bad ≤ c)

/-- The fetch reads the big-endian word at `pc`, whatever `wait` is (R121, R63), at odd addresses alike (R27 and R65,
the spec's decision D6, log entry 14), and the step raises AddressOutOfRange when `pc > 4094` (R121, R214). The
record, word 0 and the offending address, is R219's, the spec's decision D11 (log entry 16). -/
def Obligations.FetchReadsTheWordOrFaults : Prop :=
  ∀ s : State,
    (s.pc.toNat ≤ 4094 → ∃ w, fetch s = .ok w ∧
      w.toNat = (s.mem.peek s.pc.toNat).toNat * 256 + (s.mem.peek (s.pc.toNat + 1)).toNat) ∧
    (4094 < s.pc.toNat →
      step s = .fault (.addressOutOfRange s.pc 0x0000 (if s.pc = 0x0FFF then 0x1000 else s.pc)))

/-- Equal memories are equal data, and so are equal framebuffers: two in canonical form that read alike everywhere are
the same list. The lists and their canonical form are this model's own choice (log entry 17); the spec gives the
arrays they stand for (R35, R61). -/
def Obligations.CanonicalFormsThatReadAlikeAreEqual : Prop :=
  (∀ m m' : Memory, m.wf → m'.wf → (∀ a, a ≤ 4095 → m.peek a = m'.peek a) → m = m') ∧
  (∀ f f' : Framebuffer, f.wf → f'.wf → (∀ k, k < 2048 → f.on k = f'.on k) → f = f')

/-- R227: the loader port puts image byte `k` at `0x200 + k` and writes nothing below 0x200 or above the image. That a
longer image has no step is U7's treatment and the spec's decision D21 (log entry 18); the canonical form that is kept
is this model's own (log entry 17). -/
def Obligations.LoaderPlacesTheImage : Prop :=
  ∀ (image : List Byte) (s : State),
    (image.length ≤ 3584 → ∃ t, loadImage image s = some t ∧ t = { s with mem := t.mem } ∧
      (∀ k (h : k < image.length), t.mem.peek (0x200 + k) = image[k]) ∧
      (∀ a, a < 0x200 ∨ 0x200 + image.length ≤ a → t.mem.peek a = s.mem.peek a) ∧
      (s.wf → t.wf)) ∧
    (3584 < image.length → loadImage image s = none)

/-! ### The cycle -/

/-- A step runs the decoded instruction (R120, R123): where the bytes at `pc` decode to `i`, the step is the dispatch
of `i` and, when that completes, the timer update. -/
def Obligations.StepRunsTheDecodedInstruction : Prop :=
  ∀ (s : State) (i : Instr), s.pc.toNat ≤ 4094 → decode (nextWord s) = .ok i →
    step s = match exec i s with
      | .next t => .next { t with
          dt := if t.wait = .running ∧ t.dt ≠ 0 then t.dt - 1 else t.dt
          st := if t.wait = .running ∧ t.st ≠ 0 then t.st - 1 else t.st }
      | .fault f => .fault f
      | .refused r => .refused r

/-- R126: after a completed dispatch both timers drop by 1, each only if above 0, unless the dispatch left the engine
waiting for a key; while waiting both are frozen. -/
def Obligations.TimersTickUnlessWaiting : Prop :=
  ∀ s t : State, step s = .next t →
    (t.wait = .running → t.dt.toNat = s.dt.toNat - 1 ∧ t.st.toNat = s.st.toNat - 1) ∧
    (∀ r, t.wait = .awaitingKey r → t.dt = s.dt ∧ t.st = s.st)

/-- R211: a fetched word that is no row of R96's table faults in decode, recording the address and the word. That the
table matches group 0 on the whole word is the spec's decision D7 (log entry 5). -/
def Obligations.UnrecognisedWordFaults : Prop :=
  ∀ s : State, s.pc.toNat ≤ 4094 → (∀ r ∈ opcodeTable, r.matchesWord (nextWord s) = false) →
    step s = .fault (.unrecognizedOpcode s.pc (nextWord s))

/-- Every state has a next cycle, which completes or faults (R258); no step is refused. -/
def Obligations.EveryCycleCompletesOrFaults : Prop :=
  ∀ s : State, (∃ t, step s = .next t) ∨ (∃ f, step s = .fault f)

/-- R217: which instruction can raise what, and exactly when, with R212's, R213's and R214's records. That the draw
checks all its addresses first is the spec's decision D5. -/
def Obligations.OnlyCallReturnAndDrawCanFault : Prop :=
  ∀ (i : Instr) (s : State) (f : Fault), exec i s = .fault f ↔
    (∃ nnn, i = .call nnn ∧ s.sp.val = 16 ∧ f = .stackOverflow s.pc (encode i)) ∨
    (i = .ret ∧ s.sp.val = 0 ∧ f = .stackUnderflow s.pc (encode i)) ∨
    (∃ x y n, i = .drw x y n ∧ 0 < n ∧ 4095 < s.idx.toNat + n - 1 ∧
      f = .addressOutOfRange s.pc (encode i) (BitVec.ofNat 16 (max s.idx.toNat 4096)))

/-- A faulting cycle returns the error record at the cycle port and leaves the state as it was (R218, R219): the
record names the faulting instruction, the fetched word, or 0 when the fetch itself faulted, and an offending
address above 4095 for AddressOutOfRange only. The fields and the unchanged state are the spec's decisions D10 and
D11. -/
def Obligations.FaultsArePreciseAndRecorded : Prop :=
  ∀ (s : State) (f : Fault), step s = .fault f →
    cyclePort s = (.error f.record, s) ∧ f.record.pc = s.pc ∧
    (f.record.code = 1 ∨ f.record.code = 2 ∨ f.record.code = 3 ∨ f.record.code = 4) ∧
    (f.record.code = 4 → 4095 < f.record.addr.toNat) ∧ (f.record.code ≠ 4 → f.record.addr = 0) ∧
    (fetch s = .ok f.record.word ∨ (4094 < s.pc.toNat ∧ f.record.word = 0 ∧ f.record.code = 4))

/-- A fault repeats whatever the key inputs become (R222), since the state is unchanged (the spec's decision D10)
and no fault condition reads a key. -/
def Obligations.FaultRepeatsWhateverTheKeys : Prop :=
  ∀ (s : State) (f : Fault) (keys : Vector Bool 16), step s = .fault f → step (s.withKeys keys) = .fault f

/-! ### Control transfer -/

/-- R141: 1NNN loads `pc` with the zero-extended address. That nothing else changes is the spec's decision D22 (R123,
log entry 10). -/
def Obligations.JumpLoadsTheAddress : Prop :=
  ∀ (nnn : Addr) (s : State), decode (wordA 1 nnn) = .ok (.jp nnn) ∧
    ∃ t, exec (.jp nnn) s = .next t ∧ t.pc.toNat = nnn.toNat ∧ OnlyRegisters [] s t

/-- R142 and R212: 2NNN pushes its own address, counts the entry and jumps; a return from there (R140) restores `pc`
to the call's address plus 2, the stack depth and every live entry. With 16 entries in use it faults. That nothing
else changes is the spec's decision D22 (R123, log entry 10). -/
def Obligations.CallPushesItsOwnAddress : Prop :=
  ∀ (nnn : Addr) (s : State), decode (wordA 2 nnn) = .ok (.call nnn) ∧
    (s.sp.val < 16 → ∃ t, exec (.call nnn) s = .next t ∧ t.pc.toNat = nnn.toNat ∧ t.sp.val = s.sp.val + 1 ∧
      (∀ k : Fin 16, t.readStack k = if k.val = s.sp.val then s.pc else s.readStack k) ∧ OnlyStack s t ∧
      ∃ u, exec .ret t = .next u ∧ u.pc = s.pc + 2 ∧ u.sp = s.sp ∧
        (∀ k : Fin 16, k.val < s.sp.val → u.readStack k = s.readStack k) ∧ OnlyStack s u) ∧
    (s.sp.val = 16 → exec (.call nnn) s = .fault (.stackOverflow s.pc (wordA 2 nnn)))

/-- R140 and R213: 00EE takes the top entry off, not clearing it, and goes to that address plus 2; with no entry in
use it faults. That nothing else changes is the spec's decision D22 (R123, log entry 10); the sum modulo 65536 is its
decision D16 (log entry 15). -/
def Obligations.ReturnGoesPastTheCallSite : Prop :=
  ∀ s : State, decode 0x00EE = .ok .ret ∧
    (∀ k : Fin 16, s.sp.val = k.val + 1 → ∃ t, exec .ret s = .next t ∧ t.sp.val = k.val ∧
      t.pc.toNat = ((s.readStack k).toNat + 2) % 65536 ∧ (∀ j, t.readStack j = s.readStack j) ∧ OnlyStack s t) ∧
    (s.sp.val = 0 → exec .ret s = .fault (.stackUnderflow s.pc 0x00EE))

/-- R143 with JUMP_OFFSET = sum, the spec's decision D1 and this model's choice (log entry 4): BNNN loads `pc` with
the sum of the address and V0, not reduced. That nothing else changes is its decision D22 (R123, log entry 10). -/
def Obligations.OffsetJumpAddsV0 : Prop :=
  ∀ (nnn : Addr) (s : State), decode (wordA 0xB nnn) = .ok (.jpV0Nnn nnn) ∧
    ∃ t, exec (.jpV0Nnn nnn) s = .next t ∧ t.pc.toNat = nnn.toNat + (s.readV 0).toNat ∧ OnlyRegisters [] s t

/-- For `V0 = 0` both values of JUMP_OFFSET give NNN; for `V0 > 0` the literal form gives
`0x1000 + (NN AND (V0 - 1))` (`93_implementation_defined.md` U2, G4). -/
def Obligations.OffsetJumpFormsCompared : Prop :=
  ∀ nnn : Addr,
    (∀ mode, (jumpTarget mode nnn 0).toNat = nnn.toNat) ∧
    (∀ v0 : Byte, v0 ≠ 0 →
      (jumpTarget .literal nnn v0).toNat = 0x1000 + ((nnn.toNat % 256) &&& (v0.toNat - 1)))

/-! ### Skips -/

/-- R150 to R154: each of the four skips advances `pc` by 4 when its condition holds and by 2 otherwise, and writes no
register. That nothing else changes is the spec's decision D22 (R123, log entry 10). -/
def Obligations.SkipsAdvanceByFourOrTwo : Prop :=
  ∀ (x y : Reg) (nn : Byte) (s : State),
    decode (wordRI 3 x nn.toNat) = .ok (.seVxNn x nn) ∧ decode (wordRI 4 x nn.toNat) = .ok (.sneVxNn x nn) ∧
    decode (wordRR 5 x y 0) = .ok (.seVxVy x y) ∧ decode (wordRR 9 x y 0) = .ok (.sneVxVy x y) ∧
    (∃ t, exec (.seVxNn x nn) s = .next t ∧ OnlyRegisters [] s t ∧
      t.pc = if s.readV x = nn then s.pc + 4 else s.pc + 2) ∧
    (∃ t, exec (.sneVxNn x nn) s = .next t ∧ OnlyRegisters [] s t ∧
      t.pc = if s.readV x ≠ nn then s.pc + 4 else s.pc + 2) ∧
    (∃ t, exec (.seVxVy x y) s = .next t ∧ OnlyRegisters [] s t ∧
      t.pc = if s.readV x = s.readV y then s.pc + 4 else s.pc + 2) ∧
    (∃ t, exec (.sneVxVy x y) s = .next t ∧ OnlyRegisters [] s t ∧
      t.pc = if s.readV x ≠ s.readV y then s.pc + 4 else s.pc + 2)

/-! ### Loads and immediate add -/

/-- R160: 6XNN sets `V[X]` to NN. That nothing else changes is the spec's decision D22 (R23, R123, log entry 10). -/
def Obligations.LoadImmediateSetsTheRegister : Prop :=
  ∀ (x : Reg) (nn : Byte) (s : State), decode (wordRI 6 x nn.toNat) = .ok (.ldVxNn x nn) ∧
    ∃ t, exec (.ldVxNn x nn) s = .next t ∧ t.readV x = nn ∧ t.pc = s.pc + 2 ∧ OnlyRegisters [x] s t

/-- R161: 7XNN, modulo 256, VF written only as the destination. That nothing else changes is the spec's decision D22
(R23, R123, log entry 10). -/
def Obligations.AddImmediateWrapsWithoutFlag : Prop :=
  ∀ (x : Reg) (nn : Byte) (s : State), decode (wordRI 7 x nn.toNat) = .ok (.addVxNn x nn) ∧
    ∃ t, exec (.addVxNn x nn) s = .next t ∧ (t.readV x).toNat = ((s.readV x).toNat + nn.toNat) % 256 ∧
      t.pc = s.pc + 2 ∧ OnlyRegisters [x] s t

/-- R162: ANNN, zero-extended, unchecked. That nothing else changes is the spec's decision D22 (R123, log entry 10).
-/
def Obligations.LoadIndexZeroExtends : Prop :=
  ∀ (nnn : Addr) (s : State), decode (wordA 0xA nnn) = .ok (.ldINnn nnn) ∧
    ∃ t, exec (.ldINnn nnn) s = .next t ∧ t.idx.toNat = nnn.toNat ∧ t.pc = s.pc + 2 ∧ OnlyIndex s t

/-! ### Arithmetic and logic -/

/-- R170: 8XY0 copies `V[Y]` to `V[X]`. That nothing else changes is the spec's decision D22 (R23, R123, log entry
10). -/
def Obligations.MoveCopiesTheRegister : Prop :=
  ∀ (x y : Reg) (s : State), decode (wordRR 8 x y 0) = .ok (.ldVxVy x y) ∧
    ∃ t, exec (.ldVxVy x y) s = .next t ∧ t.readV x = s.readV y ∧ t.pc = s.pc + 2 ∧ OnlyRegisters [x] s t

/-- 8XY1, 8XY2, 8XY3 act on each of the 8 bits and write no flag (R171 to R173). That VF and everything else is left
alone is the spec's decision D22 (R23, R123, log entry 10). -/
def Obligations.BitwiseOperationsActBitByBit : Prop :=
  ∀ (x y : Reg) (s : State),
    decode (wordRR 8 x y 1) = .ok (.or x y) ∧ decode (wordRR 8 x y 2) = .ok (.and x y) ∧
    decode (wordRR 8 x y 3) = .ok (.xor x y) ∧
    (∃ t, exec (.or x y) s = .next t ∧ t.pc = s.pc + 2 ∧ OnlyRegisters [x] s t ∧
      ∀ k, k < 8 → (t.readV x).getLsbD k = ((s.readV x).getLsbD k || (s.readV y).getLsbD k)) ∧
    (∃ t, exec (.and x y) s = .next t ∧ t.pc = s.pc + 2 ∧ OnlyRegisters [x] s t ∧
      ∀ k, k < 8 → (t.readV x).getLsbD k = ((s.readV x).getLsbD k && (s.readV y).getLsbD k)) ∧
    (∃ t, exec (.xor x y) s = .next t ∧ t.pc = s.pc + 2 ∧ OnlyRegisters [x] s t ∧
      ∀ k, k < 8 → (t.readV x).getLsbD k = ((s.readV x).getLsbD k != (s.readV y).getLsbD k))

/-- 8XY4 (R174): the sum modulo 256 and its carry in VF. With X = 15 the sum is lost to the carry: the aliased forms
are the spec's decision D4 (log entry 7); the frame is its decision D22 (R123, log entry 10). -/
def Obligations.AddSetsTheCarryFlag : Prop :=
  ∀ (x y : Reg) (s : State), decode (wordRR 8 x y 4) = .ok (.addVxVy x y) ∧
    ∃ t, exec (.addVxVy x y) s = .next t ∧
      t.readV vf = (if 255 < (s.readV x).toNat + (s.readV y).toNat then 1 else 0) ∧
      (x ≠ vf → (t.readV x).toNat = ((s.readV x).toNat + (s.readV y).toNat) % 256) ∧
      t.pc = s.pc + 2 ∧ OnlyRegisters [x, vf] s t

/-- 8XY5 (R175): the difference modulo 256 and no-borrow in VF, 1 on equal operands. With X = 15 the difference is
lost to the flag: the aliased forms are the spec's decision D4 (log entry 7); the frame is its decision D22 (R123, log
entry 10). -/
def Obligations.SubSetsTheNoBorrowFlag : Prop :=
  ∀ (x y : Reg) (s : State), decode (wordRR 8 x y 5) = .ok (.sub x y) ∧
    ∃ t, exec (.sub x y) s = .next t ∧
      t.readV vf = (if (s.readV y).toNat ≤ (s.readV x).toNat then 1 else 0) ∧
      (x ≠ vf → (t.readV x).toNat = (256 + (s.readV x).toNat - (s.readV y).toNat) % 256) ∧
      t.pc = s.pc + 2 ∧ OnlyRegisters [x, vf] s t

/-- 8XY6 (R176): `V[Y]` halved, into both registers, the bit shifted out in VF. The forms with X = 15 (the flag is
lost to the result) and Y = 15 (both end 0) are the spec's decision D4 (log entry 7); the frame is its decision D22
(R123, log entry 10). -/
def Obligations.ShiftRightHalvesIntoBothRegisters : Prop :=
  ∀ (x y : Reg) (s : State), decode (wordRR 8 x y 6) = .ok (.shr x y) ∧
    ∃ t, exec (.shr x y) s = .next t ∧
      (y ≠ vf → (t.readV y).toNat = (s.readV y).toNat / 2 ∧ (t.readV x).toNat = (s.readV y).toNat / 2) ∧
      (y ≠ vf → x ≠ vf → (t.readV vf).toNat = (s.readV y).toNat % 2) ∧
      (y = vf → t.readV x = 0 ∧ t.readV vf = 0) ∧
      t.pc = s.pc + 2 ∧ OnlyRegisters [x, y, vf] s t

/-- 8XY7 (R177): the flag, 1 when `V[Y] > V[X]` strictly, first, then `V[Y] - V[X]` modulo 256 reading the registers
after the flag write. The forms with X = 15 or Y = 15, where the subtraction reads the new flag, are the spec's
decision D4 (log entry 7); the frame is its decision D22 (R123, log entry 10). -/
def Obligations.ReverseSubtractFlagsFirst : Prop :=
  ∀ (x y : Reg) (s : State), decode (wordRR 8 x y 7) = .ok (.subn x y) ∧
    ∃ t, exec (.subn x y) s = .next t ∧
      (x ≠ vf → (t.readV vf).toNat = if (s.readV x).toNat < (s.readV y).toNat then 1 else 0) ∧
      (x ≠ vf → y ≠ vf → (t.readV x).toNat = (256 + (s.readV y).toNat - (s.readV x).toNat) % 256) ∧
      (x = vf → y ≠ vf → (t.readV x).toNat =
        (256 + (s.readV y).toNat - if (s.readV x).toNat < (s.readV y).toNat then 1 else 0) % 256) ∧
      (x ≠ vf → y = vf → (t.readV x).toNat =
        (256 + (if (s.readV x).toNat < (s.readV y).toNat then 1 else 0) - (s.readV x).toNat) % 256) ∧
      (x = vf → y = vf → t.readV x = 0) ∧
      t.pc = s.pc + 2 ∧ OnlyRegisters [x, vf] s t

/-- 8XYE (R178): `V[Y]` doubled modulo 256, into both registers, VF the unshifted top bit, 0x80 or 0x00. The forms
with X = 15 and Y = 15 are the spec's decision D4 (log entry 7); the frame is its decision D22 (R123, log entry 10).
-/
def Obligations.ShiftLeftDoublesIntoBothRegisters : Prop :=
  ∀ (x y : Reg) (s : State), decode (wordRR 8 x y 0xE) = .ok (.shl x y) ∧
    ∃ t, exec (.shl x y) s = .next t ∧
      (y ≠ vf → (t.readV y).toNat = 2 * (s.readV y).toNat % 256 ∧
        (t.readV x).toNat = 2 * (s.readV y).toNat % 256) ∧
      (y ≠ vf → x ≠ vf → t.readV vf = if 128 ≤ (s.readV y).toNat then 0x80 else 0x00) ∧
      (y = vf → t.readV x = 0 ∧ t.readV vf = 0) ∧
      t.pc = s.pc + 2 ∧ OnlyRegisters [x, y, vf] s t

/-! ### Display -/

/-- R190: 00E0 turns every entry off and writes no register, memory or `I`; a second one changes no entry. That
nothing else changes is the spec's decision D22 (R123, log entry 10). -/
def Obligations.ClearDisplayTurnsEveryPixelOff : Prop :=
  ∀ s : State, decode 0x00E0 = .ok .cls ∧
    ∃ t, exec .cls s = .next t ∧ (∀ k, t.fb.on k = false) ∧ t.pc = s.pc + 2 ∧ OnlyScreen [] s t ∧
      ∃ u, exec .cls t = .next u ∧ KeepsScreen t u

/-- DXYN with a sprite byte above address 4095 faults with the smallest such address, and the whole sprite is checked
before anything is written (R191, R214); the spec's decision D5. -/
def Obligations.DrawPastMemoryFaults : Prop :=
  ∀ (x y : Reg) (n : Nat) (s : State), n ≤ 15 → 0 < n → 4095 < s.idx.toNat + n - 1 →
    exec (.drw x y n) s =
      .fault (.addressOutOfRange s.pc (wordRR 0xD x y n) (BitVec.ofNat 16 (max s.idx.toNat 4096)))

/-- DXYN (R191, R193, R194, R195): the two loops overwrite the 8 x N rectangle with the sprite's bits, leave every
other entry alone, and set VF to 1 exactly when a set bit meets an entry that was on before the draw. Wrapping at the
edges is the spec's decision D2 and this model's choice (log entry 6); X = 15 or Y = 15 reading the reset VF is its
decision D3 (log entry 8); that nothing else changes is its decision D22 (R123, log entry 10). -/
def Obligations.DrawOverwritesItsRectangle : Prop :=
  ∀ (x y : Reg) (n : Nat) (s : State), n ≤ 15 → (n = 0 ∨ s.idx.toNat + n - 1 ≤ 4095) →
    decode (wordRR 0xD x y n) = .ok (.drw x y n) ∧
    ∃ t, exec (.drw x y n) s = .next t ∧
      (∀ row col, row < n → col < 8 → t.fb.on (wrapEntry s x y row col) = spriteAt s row col) ∧
      (∀ k, (∀ row col, row < n → col < 8 → k ≠ wrapEntry s x y row col) → t.fb.on k = s.fb.on k) ∧
      (t.readV vf = 1 ↔ ∃ row col, row < n ∧ col < 8 ∧ spriteAt s row col = true ∧
        s.fb.on (wrapEntry s x y row col) = true) ∧
      (t.readV vf = 0 ∨ t.readV vf = 1) ∧
      t.pc = s.pc + 2 ∧ OnlyScreen [vf] s t

/-- A sprite cannot be erased by drawing it again (R193): the second draw of the same sprite changes no entry, and
sets VF to 1 exactly when the sprite has a set bit. Edges and aliased operands as in the spec's decisions D2 and D3. -/
def Obligations.DrawingTwiceKeepsTheSprite : Prop :=
  ∀ (x y : Reg) (n : Nat) (s : State), n ≤ 15 → (n = 0 ∨ s.idx.toNat + n - 1 ≤ 4095) →
    ∃ t u, exec (.drw x y n) s = .next t ∧ exec (.drw x y n) t = .next u ∧ KeepsScreen t u ∧
      (u.readV vf = 1 ↔ ∃ row col, row < n ∧ col < 8 ∧ spriteAt s row col = true)

/-- A sprite wholly inside the grid is drawn alike under either edge policy (R192). -/
def Obligations.EdgePolicyIsUnseenInsideTheGrid : Prop :=
  ∀ (x y : Reg) (n : Nat) (s : State), drawOrigin s x ≤ 56 → drawOrigin s y + n ≤ 32 →
    drawSprite .clip x y n s = drawSprite .wrap x y n s

/-- The alternative policy `clip` (R192): a pixel past the right or bottom edge is neither tested nor written; the
others are drawn as under `wrap`. X = 15 or Y = 15 as in the spec's decision D3. -/
def Obligations.ClipDropsPixelsOffTheGrid : Prop :=
  ∀ (x y : Reg) (n : Nat) (s : State), n ≤ 15 →
    (∀ row col, row < n → col < 8 → drawOrigin s x + col ≤ 63 → drawOrigin s y + row ≤ 31 →
      (drawSprite .clip x y n s).fb.on (wrapEntry s x y row col) = spriteAt s row col) ∧
    (∀ k, (∀ row col, row < n → col < 8 → drawOrigin s x + col ≤ 63 → drawOrigin s y + row ≤ 31 →
      k ≠ wrapEntry s x y row col) → (drawSprite .clip x y n s).fb.on k = s.fb.on k) ∧
    ((drawSprite .clip x y n s).readV vf = 1 ↔ ∃ row col, row < n ∧ col < 8 ∧ drawOrigin s x + col ≤ 63 ∧
      drawOrigin s y + row ≤ 31 ∧ spriteAt s row col = true ∧ s.fb.on (wrapEntry s x y row col) = true)

/-! ### Timer read and key wait -/

/-- R200: FX07 reads the delay timer as the dispatch finds it. That nothing else changes is the spec's decision D22
(R23, R123, log entry 10). -/
def Obligations.ReadDelayTimerCopiesDT : Prop :=
  ∀ (x : Reg) (s : State), decode (wordRI 0xF x 0x07) = .ok (.ldVxDt x) ∧
    ∃ t, exec (.ldVxDt x) s = .next t ∧ t.readV x = s.dt ∧ t.pc = s.pc + 2 ∧ OnlyRegisters [x] s t

/-- FX07 sees the value the previous cycle left and the timer ticks after it in the same cycle (R130). -/
def Obligations.DelayTimerIsReadBeforeItTicks : Prop :=
  ∀ (x : Reg) (s : State), fetch s = .ok (wordRI 0xF x 0x07) →
    ∃ t, step s = .next t ∧ t.readV x = s.dt ∧ t.dt.toNat = s.dt.toNat - 1

/-- R201: FX0A with no key down changes nothing but `wait`; with a key down it stores the lowest index that is down,
advances `pc` by 2 and returns to Running. That nothing else changes then is the spec's decision D22 (R23, R123, log
entry 10). -/
def Obligations.KeyWaitStoresTheLowestKey : Prop :=
  ∀ (x : Reg) (s : State), decode (wordRI 0xF x 0x0A) = .ok (.ldVxK x) ∧
    (NoKeyDown s → exec (.ldVxK x) s = .next { s with wait := .awaitingKey x }) ∧
    (∀ k, LowestKeyDown s k → ∃ t, exec (.ldVxK x) s = .next t ∧ (t.readV x).toNat = k.val ∧
      t.pc = s.pc + 2 ∧ OnlyRegisters [x] s t)

/-- R201's law over any number of cycles: with no key down, repeated cycles on an FX0A leave everything but `wait` as
it was, the timers frozen even if non-zero; the cycle after a key is pressed stores its index, advances `pc` by 2 and
lets the timers tick. That the resolving cycle itself ticks them is the spec's resolution C5. -/
def Obligations.KeyWaitPollsUntilAKeyIsDown : Prop :=
  ∀ (x : Reg) (s : State), fetch s = .ok (wordRI 0xF x 0x0A) → NoKeyDown s →
    (∀ n : Nat, Host.Core.run Sys2Proof.core (n + 1) s =
      (.next { s with wait := .awaitingKey x } : Host.Outcome State Fault Refusal)) ∧
    (∀ (keys : Vector Bool 16) (k : Fin 16), LowestKeyDown (s.withKeys keys) k →
      ∃ t, step ({ s with wait := .awaitingKey x }.withKeys keys) = .next t ∧ (t.readV x).toNat = k.val ∧
        t.pc = s.pc + 2 ∧ t.wait = .running ∧ t.dt.toNat = s.dt.toNat - 1 ∧ t.st.toNat = s.st.toNat - 1)

/-- R202's table of the next `wait`: AwaitingKey(X) exactly after an FX0A that found no key down, Running after every
other completed cycle, whatever `wait` was; the spec's decision D13. -/
def Obligations.WaitIsSetByAnUnresolvedKeyWaitOnly : Prop :=
  ∀ s t : State, step s = .next t →
    (∀ x, decode (nextWord s) = .ok (.ldVxK x) → NoKeyDown s → t.wait = .awaitingKey x) ∧
    ((∀ x, decode (nextWord s) ≠ .ok (.ldVxK x)) ∨ ¬ NoKeyDown s → t.wait = .running)

/-! ### Whole-machine rules -/

/-- An instruction writes no general register but its destinations, and VF for the six that use it as a flag (R20,
R23, R28); the spec's decision D22. -/
def Obligations.OnlyNamedRegistersAreWritten : Prop :=
  ∀ (i : Instr) (s t : State), exec i s = .next t → KeepsV (mayWriteV i) s t

/-- Who changes what else (R20, R24, R31, R36): `I` only ANNN, the framebuffer only 00E0 and DXYN, the stack and its
pointer only 2NNN and 00EE; no dispatch changes memory, a timer or a key input; the spec's decision D22. -/
def Obligations.SpecialStateHasItsOwnWriters : Prop :=
  ∀ (i : Instr) (s t : State), exec i s = .next t →
    ((∀ nnn, i ≠ .ldINnn nnn) → t.idx = s.idx) ∧
    ((i ≠ .cls ∧ ∀ x y n, i ≠ .drw x y n) → KeepsScreen s t) ∧
    ((i ≠ .ret ∧ ∀ nnn, i ≠ .call nnn) → KeepsStack s t) ∧
    KeepsMemory s t ∧ KeepsTimersAndKeys s t

/-- No instruction writes memory and the engine never writes its key inputs (R37, R70): a step keeps both. -/
def Obligations.StepWritesNeitherMemoryNorKeys : Prop :=
  ∀ s t : State, step s = .next t → KeepsMemory s t ∧ t.keys = s.keys

/-- Key inputs are read by FX0A only (R20, R60): any other instruction does the same whatever they are. -/
def Obligations.OnlyTheKeyWaitReadsTheKeys : Prop :=
  ∀ (i : Instr) (s : State) (keys : Vector Bool 16), (∀ x, i ≠ .ldVxK x) →
    (∀ t, exec i s = .next t → exec i (s.withKeys keys) = .next (t.withKeys keys)) ∧
    (∀ f, exec i s = .fault f → exec i (s.withKeys keys) = .fault f)

/-- The sound timer drives nothing in the core (R34): a step from a state with another value in it does the same to
everything else. -/
def Obligations.SoundTimerInfluencesNothing : Prop :=
  ∀ (s : State) (b : Byte),
    (∀ t, step s = .next t → ∃ c, step (s.withSound b) = .next (t.withSound c)) ∧
    (∀ f, step s = .fault f → step (s.withSound b) = .fault f)

/-- Stack entries at `sp` and above are never read before a call writes them (R31): states that differ only there
step alike and go on differing only there. -/
def Obligations.DeadStackEntriesAreNeverSeen : Prop :=
  ∀ s s' : State, AgreeOnLive s s' → ResultsAgree (step s) (step s')

/-- A run that has ended stays ended (R258, the spec's convention D18): every further cycle changes only the timers,
each toward 0. -/
def Obligations.EndedRunOnlyCountsDown : Prop :=
  ∀ s : State, Ended s → ∃ t, step s = .next t ∧ Ended t ∧ t = { s with dt := t.dt, st := t.st } ∧
    t.dt.toNat = s.dt.toNat - 1 ∧ t.st.toNat = s.st.toNat - 1

/-! ### Invariants -/

/-- Every step from a state whose memory and framebuffer stand in canonical form leaves them so. The lists and their
canonical form are this model's own choice (log entry 17); R43 asks for bytes and bits only. -/
def Obligations.StepKeepsCanonicalForm : Prop :=
  ∀ s t : State, s.wf → step s = .next t → t.wf

/-- The bounds of R24, R27 and R32 are kept by every step, from every state that meets them: `I` at most 0x0FFF, `pc`
at most 0x10FE, every live stack entry an address a fetch succeeded at. The bound on `pc` rests on the spec's decision
D1 (log entry 4); the canonical form kept with them is this model's own (log entry 17). -/
def Obligations.StepKeepsAddressBounds : Prop :=
  ∀ s t : State, AddressBounds s → step s = .next t → AddressBounds t

/-- Every state reached from reset by the host's moves, which are the spec's decision D21 (log entry 18): any image of
at most 3584 bytes loaded before the first cycle, then any key inputs between cycles. The address bounds hold, both
timers are 0 (R255), and every byte below 0x200 is what reset left there (R66). The bound on `pc` rests on its
decision D1 (log entry 4), the reset timers on D8 (log entry 3). -/
def Obligations.ReachableStatesAreBounded : Prop :=
  ∀ s : State, Reachable s →
    AddressBounds s ∧ s.dt = 0 ∧ s.st = 0 ∧ ∀ a, a < 0x200 → s.mem.peek a = State.reset.mem.peek a

/-- A timer at 0 stays at 0 over every step, from every state: no instruction loads one (R34, R255). -/
def Obligations.StoppedTimersStayStopped : Prop :=
  ∀ s t : State, step s = .next t → (s.dt = 0 → t.dt = 0) ∧ (s.st = 0 → t.st = 0)

/-! ### Fields -/

/-- R91: the six fields of a word stand at their bit positions, as unsigned numbers, and overlap: NN is Y and N put
together, NNN is X, Y and N. -/
def Obligations.FieldsOfAWord : Prop :=
  ∀ w : Word,
    (fieldG w).toNat = w.toNat / 4096 ∧ (fieldX w).val = w.toNat / 256 % 16 ∧ (fieldY w).val = w.toNat / 16 % 16 ∧
    (fieldN w).toNat = w.toNat % 16 ∧ (fieldNN w).toNat = w.toNat % 256 ∧ (fieldNNN w).toNat = w.toNat % 4096 ∧
    fieldNN w = regBits (fieldY w) ++ fieldN w ∧
    fieldNNN w = regBits (fieldX w) ++ (regBits (fieldY w) ++ fieldN w)
end

