-- ==== Sys2Proof/Laws/Decode.lean ====
section
/-! SUPPORT. What the fields of a word built by a format are, and a word put together again from its fields. -/

namespace Sys2Proof

theorem formatA_toNat (g : BitVec 4) (nnn : Addr) : (formatA g nnn).toNat = g.toNat * 4096 + nnn.toNat := by
  unfold formatA
  rw [BitVec.toNat_append, ← Nat.shiftLeft_add_eq_or_of_lt (by exact nnn.isLt), Nat.shiftLeft_eq]

theorem regBits_toNat (x : Reg) : (regBits x).toNat = x.val := rfl

theorem formatRI_toNat (g : BitVec 4) (x : Reg) (nn : Byte) :
    (formatRI g x nn).toNat = g.toNat * 4096 + x.val * 256 + nn.toNat := by
  have h : (regBits x ++ nn).toNat = x.val * 256 + nn.toNat := by
    rw [BitVec.toNat_append, ← Nat.shiftLeft_add_eq_or_of_lt (by exact nn.isLt), Nat.shiftLeft_eq, regBits_toNat]
  have := x.isLt
  have := nn.isLt
  unfold formatRI
  rw [BitVec.toNat_append, ← Nat.shiftLeft_add_eq_or_of_lt (by rw [h]; omega), Nat.shiftLeft_eq, h]
  omega

theorem formatRR_toNat (g : BitVec 4) (x y : Reg) (n : BitVec 4) :
    (formatRR g x y n).toNat = g.toNat * 4096 + x.val * 256 + y.val * 16 + n.toNat := by
  have h1 : (regBits y ++ n).toNat = y.val * 16 + n.toNat := by
    rw [BitVec.toNat_append, ← Nat.shiftLeft_add_eq_or_of_lt (by exact n.isLt), Nat.shiftLeft_eq, regBits_toNat]
  have hx := x.isLt
  have hy := y.isLt
  have hn := n.isLt
  have h2 : (regBits x ++ (regBits y ++ n)).toNat = x.val * 256 + (y.val * 16 + n.toNat) := by
    rw [BitVec.toNat_append, ← Nat.shiftLeft_add_eq_or_of_lt (by rw [h1]; omega), Nat.shiftLeft_eq, h1, regBits_toNat]
  unfold formatRR
  rw [BitVec.toNat_append, ← Nat.shiftLeft_add_eq_or_of_lt (by rw [h2]; omega), Nat.shiftLeft_eq, h2]
  omega

/-! ### The fields as numbers (R91) -/

theorem fieldG_toNat (w : Word) : (fieldG w).toNat = w.toNat / 4096 := by
  have := w.isLt
  simp only [fieldG, BitVec.extractLsb'_toNat, Nat.shiftRight_eq_div_pow]
  omega

theorem fieldX_val (w : Word) : (fieldX w).val = w.toNat / 256 % 16 := by
  simp only [fieldX, BitVec.val_toFin, BitVec.extractLsb'_toNat, Nat.shiftRight_eq_div_pow]

theorem fieldY_val (w : Word) : (fieldY w).val = w.toNat / 16 % 16 := by
  simp only [fieldY, BitVec.val_toFin, BitVec.extractLsb'_toNat, Nat.shiftRight_eq_div_pow]

theorem fieldN_toNat (w : Word) : (fieldN w).toNat = w.toNat % 16 := by
  simp only [fieldN, BitVec.extractLsb'_toNat, Nat.shiftRight_zero]

theorem fieldNN_toNat (w : Word) : (fieldNN w).toNat = w.toNat % 256 := by
  simp only [fieldNN, BitVec.extractLsb'_toNat, Nat.shiftRight_zero]

theorem fieldNNN_toNat (w : Word) : (fieldNNN w).toNat = w.toNat % 4096 := by
  simp only [fieldNNN, BitVec.extractLsb'_toNat, Nat.shiftRight_zero]

/-! ### The fields of a word a format built -/

theorem fieldG_formatA (g : BitVec 4) (nnn : Addr) : fieldG (formatA g nnn) = g := by
  have := nnn.isLt
  apply BitVec.eq_of_toNat_eq; rw [fieldG_toNat, formatA_toNat]; omega

theorem fieldNNN_formatA (g : BitVec 4) (nnn : Addr) : fieldNNN (formatA g nnn) = nnn := by
  have := nnn.isLt
  apply BitVec.eq_of_toNat_eq; rw [fieldNNN_toNat, formatA_toNat]; omega

theorem fieldG_formatRI (g : BitVec 4) (x : Reg) (nn : Byte) : fieldG (formatRI g x nn) = g := by
  have := nn.isLt
  have := x.isLt
  apply BitVec.eq_of_toNat_eq; rw [fieldG_toNat, formatRI_toNat]; omega

theorem fieldX_formatRI (g : BitVec 4) (x : Reg) (nn : Byte) : fieldX (formatRI g x nn) = x := by
  have := nn.isLt
  have := x.isLt
  apply Fin.ext; rw [fieldX_val, formatRI_toNat]; omega

theorem fieldNN_formatRI (g : BitVec 4) (x : Reg) (nn : Byte) : fieldNN (formatRI g x nn) = nn := by
  have := nn.isLt
  apply BitVec.eq_of_toNat_eq; rw [fieldNN_toNat, formatRI_toNat]; omega

theorem fieldG_formatRR (g : BitVec 4) (x y : Reg) (n : BitVec 4) : fieldG (formatRR g x y n) = g := by
  have := x.isLt
  have := y.isLt
  have := n.isLt
  apply BitVec.eq_of_toNat_eq; rw [fieldG_toNat, formatRR_toNat]; omega

theorem fieldX_formatRR (g : BitVec 4) (x y : Reg) (n : BitVec 4) : fieldX (formatRR g x y n) = x := by
  have := x.isLt
  have := y.isLt
  have := n.isLt
  apply Fin.ext; rw [fieldX_val, formatRR_toNat]; omega

theorem fieldY_formatRR (g : BitVec 4) (x y : Reg) (n : BitVec 4) : fieldY (formatRR g x y n) = y := by
  have := y.isLt
  have := n.isLt
  apply Fin.ext; rw [fieldY_val, formatRR_toNat]; omega

theorem fieldN_formatRR (g : BitVec 4) (x y : Reg) (n : BitVec 4) : fieldN (formatRR g x y n) = n := by
  have := n.isLt
  apply BitVec.eq_of_toNat_eq; rw [fieldN_toNat, formatRR_toNat]; omega

/-! ### A word is its fields put together (R92) -/

theorem formatA_fields (w : Word) : formatA (fieldG w) (fieldNNN w) = w := by
  apply BitVec.eq_of_toNat_eq; rw [formatA_toNat, fieldG_toNat, fieldNNN_toNat]; omega

theorem formatRI_fields (w : Word) : formatRI (fieldG w) (fieldX w) (fieldNN w) = w := by
  apply BitVec.eq_of_toNat_eq; rw [formatRI_toNat, fieldG_toNat, fieldX_val, fieldNN_toNat]; omega

theorem formatRR_fields (w : Word) : formatRR (fieldG w) (fieldX w) (fieldY w) (fieldN w) = w := by
  apply BitVec.eq_of_toNat_eq; rw [formatRR_toNat, fieldG_toNat, fieldX_val, fieldY_val, fieldN_toNat]; omega

/-! ### Decoding a word a format built -/

theorem decode_formatA (g : BitVec 4) (nnn : Addr) : decode (formatA g nnn) = decodeGroup g (formatA g nnn) :=
  congrArg (fun k => decodeGroup k (formatA g nnn)) (fieldG_formatA g nnn)

theorem decode_formatRI (g : BitVec 4) (x : Reg) (nn : Byte) :
    decode (formatRI g x nn) = decodeGroup g (formatRI g x nn) :=
  congrArg (fun k => decodeGroup k (formatRI g x nn)) (fieldG_formatRI g x nn)

theorem decode_formatRR (g : BitVec 4) (x y : Reg) (n : BitVec 4) :
    decode (formatRR g x y n) = decodeGroup g (formatRR g x y n) :=
  congrArg (fun k => decodeGroup k (formatRR g x y n)) (fieldG_formatRR g x y n)

/-- A word of group 8 decodes by its low nibble. -/
theorem decode_formatRR_group8 (x y : Reg) (n : BitVec 4) : decode (formatRR 0x8#4 x y n) = decodeGroup8 n x y := by
  rw [decode_formatRR]
  show decodeGroup8 (fieldN _) (fieldX _) (fieldY _) = _
  rw [fieldN_formatRR, fieldX_formatRR, fieldY_formatRR]

/-- A word of group F decodes by its low byte. -/
theorem decode_formatRI_groupF (x : Reg) (nn : Byte) : decode (formatRI 0xF#4 x nn) = decodeGroupF nn x := by
  rw [decode_formatRI]
  show decodeGroupF (fieldNN _) (fieldX _) = _
  rw [fieldNN_formatRI, fieldX_formatRI]

end Sys2Proof
end

