-- ==== Sys2Proof/Laws/State.lean ====
section
/-! SUPPORT. The small lemmas of State: what each named update leaves in each field, and what the accessors read
after it. Later proofs cite these and unfold no record update. -/

namespace Sys2Proof.Machine

/-! ### writeV -/

@[simp] theorem writeV_mem (s : State) (x : Reg) (b : Byte) : (s.writeV x b).mem = s.mem := rfl
@[simp] theorem writeV_idx (s : State) (x : Reg) (b : Byte) : (s.writeV x b).idx = s.idx := rfl
@[simp] theorem writeV_pc (s : State) (x : Reg) (b : Byte) : (s.writeV x b).pc = s.pc := rfl
@[simp] theorem writeV_sp (s : State) (x : Reg) (b : Byte) : (s.writeV x b).sp = s.sp := rfl
@[simp] theorem writeV_stack (s : State) (x : Reg) (b : Byte) : (s.writeV x b).stack = s.stack := rfl
@[simp] theorem writeV_dt (s : State) (x : Reg) (b : Byte) : (s.writeV x b).dt = s.dt := rfl
@[simp] theorem writeV_st (s : State) (x : Reg) (b : Byte) : (s.writeV x b).st = s.st := rfl
@[simp] theorem writeV_fb (s : State) (x : Reg) (b : Byte) : (s.writeV x b).fb = s.fb := rfl
@[simp] theorem writeV_wait (s : State) (x : Reg) (b : Byte) : (s.writeV x b).wait = s.wait := rfl
@[simp] theorem writeV_keys (s : State) (x : Reg) (b : Byte) : (s.writeV x b).keys = s.keys := rfl

theorem readV_writeV (s : State) (x r : Reg) (b : Byte) :
    (s.writeV x b).readV r = if r = x then b else s.readV r := by
  simp only [State.readV, State.writeV, Vector.getElem_set]
  by_cases h : r = x
  · simp [h]
  · have : x.val ≠ r.val := fun e => h (Fin.ext e.symm)
    simp [h, this]

@[simp] theorem readV_writeV_same (s : State) (x : Reg) (b : Byte) : (s.writeV x b).readV x = b := by
  simp [readV_writeV]

@[simp] theorem readV_writeV_ne (s : State) {x r : Reg} (b : Byte) (h : r ≠ x) :
    (s.writeV x b).readV r = s.readV r := by
  simp [readV_writeV, h]

@[simp] theorem readStack_writeV (s : State) (x : Reg) (b : Byte) (k : Fin 16) :
    (s.writeV x b).readStack k = s.readStack k := rfl

/-! ### setPc -/

@[simp] theorem setPc_mem (s : State) (p : Word) : (s.setPc p).mem = s.mem := rfl
@[simp] theorem setPc_v (s : State) (p : Word) : (s.setPc p).v = s.v := rfl
@[simp] theorem setPc_idx (s : State) (p : Word) : (s.setPc p).idx = s.idx := rfl
@[simp] theorem setPc_pc (s : State) (p : Word) : (s.setPc p).pc = p := rfl
@[simp] theorem setPc_sp (s : State) (p : Word) : (s.setPc p).sp = s.sp := rfl
@[simp] theorem setPc_stack (s : State) (p : Word) : (s.setPc p).stack = s.stack := rfl
@[simp] theorem setPc_dt (s : State) (p : Word) : (s.setPc p).dt = s.dt := rfl
@[simp] theorem setPc_st (s : State) (p : Word) : (s.setPc p).st = s.st := rfl
@[simp] theorem setPc_fb (s : State) (p : Word) : (s.setPc p).fb = s.fb := rfl
@[simp] theorem setPc_wait (s : State) (p : Word) : (s.setPc p).wait = s.wait := rfl
@[simp] theorem setPc_keys (s : State) (p : Word) : (s.setPc p).keys = s.keys := rfl

@[simp] theorem readV_setPc (s : State) (p : Word) (r : Reg) : (s.setPc p).readV r = s.readV r := rfl

@[simp] theorem readStack_setPc (s : State) (p : Word) (j : Fin 16) : (s.setPc p).readStack j = s.readStack j := rfl

/-! ### setWait -/

@[simp] theorem setWait_mem (s : State) (q : WaitState) : (s.setWait q).mem = s.mem := rfl
@[simp] theorem setWait_v (s : State) (q : WaitState) : (s.setWait q).v = s.v := rfl
@[simp] theorem setWait_idx (s : State) (q : WaitState) : (s.setWait q).idx = s.idx := rfl
@[simp] theorem setWait_pc (s : State) (q : WaitState) : (s.setWait q).pc = s.pc := rfl
@[simp] theorem setWait_sp (s : State) (q : WaitState) : (s.setWait q).sp = s.sp := rfl
@[simp] theorem setWait_stack (s : State) (q : WaitState) : (s.setWait q).stack = s.stack := rfl
@[simp] theorem setWait_dt (s : State) (q : WaitState) : (s.setWait q).dt = s.dt := rfl
@[simp] theorem setWait_st (s : State) (q : WaitState) : (s.setWait q).st = s.st := rfl
@[simp] theorem setWait_fb (s : State) (q : WaitState) : (s.setWait q).fb = s.fb := rfl
@[simp] theorem setWait_wait (s : State) (q : WaitState) : (s.setWait q).wait = q := rfl
@[simp] theorem setWait_keys (s : State) (q : WaitState) : (s.setWait q).keys = s.keys := rfl

@[simp] theorem readV_setWait (s : State) (q : WaitState) (r : Reg) : (s.setWait q).readV r = s.readV r := rfl

@[simp] theorem readStack_setWait (s : State) (q : WaitState) (j : Fin 16) : (s.setWait q).readStack j = s.readStack j := rfl

/-! ### setIdx -/

@[simp] theorem setIdx_mem (s : State) (w : Word) : (s.setIdx w).mem = s.mem := rfl
@[simp] theorem setIdx_v (s : State) (w : Word) : (s.setIdx w).v = s.v := rfl
@[simp] theorem setIdx_idx (s : State) (w : Word) : (s.setIdx w).idx = w := rfl
@[simp] theorem setIdx_pc (s : State) (w : Word) : (s.setIdx w).pc = s.pc := rfl
@[simp] theorem setIdx_sp (s : State) (w : Word) : (s.setIdx w).sp = s.sp := rfl
@[simp] theorem setIdx_stack (s : State) (w : Word) : (s.setIdx w).stack = s.stack := rfl
@[simp] theorem setIdx_dt (s : State) (w : Word) : (s.setIdx w).dt = s.dt := rfl
@[simp] theorem setIdx_st (s : State) (w : Word) : (s.setIdx w).st = s.st := rfl
@[simp] theorem setIdx_fb (s : State) (w : Word) : (s.setIdx w).fb = s.fb := rfl
@[simp] theorem setIdx_wait (s : State) (w : Word) : (s.setIdx w).wait = s.wait := rfl
@[simp] theorem setIdx_keys (s : State) (w : Word) : (s.setIdx w).keys = s.keys := rfl

@[simp] theorem readV_setIdx (s : State) (w : Word) (r : Reg) : (s.setIdx w).readV r = s.readV r := rfl

@[simp] theorem readStack_setIdx (s : State) (w : Word) (j : Fin 16) : (s.setIdx w).readStack j = s.readStack j := rfl

/-! ### setFb -/

@[simp] theorem setFb_mem (s : State) (f : Framebuffer) : (s.setFb f).mem = s.mem := rfl
@[simp] theorem setFb_v (s : State) (f : Framebuffer) : (s.setFb f).v = s.v := rfl
@[simp] theorem setFb_idx (s : State) (f : Framebuffer) : (s.setFb f).idx = s.idx := rfl
@[simp] theorem setFb_pc (s : State) (f : Framebuffer) : (s.setFb f).pc = s.pc := rfl
@[simp] theorem setFb_sp (s : State) (f : Framebuffer) : (s.setFb f).sp = s.sp := rfl
@[simp] theorem setFb_stack (s : State) (f : Framebuffer) : (s.setFb f).stack = s.stack := rfl
@[simp] theorem setFb_dt (s : State) (f : Framebuffer) : (s.setFb f).dt = s.dt := rfl
@[simp] theorem setFb_st (s : State) (f : Framebuffer) : (s.setFb f).st = s.st := rfl
@[simp] theorem setFb_fb (s : State) (f : Framebuffer) : (s.setFb f).fb = f := rfl
@[simp] theorem setFb_wait (s : State) (f : Framebuffer) : (s.setFb f).wait = s.wait := rfl
@[simp] theorem setFb_keys (s : State) (f : Framebuffer) : (s.setFb f).keys = s.keys := rfl

@[simp] theorem readV_setFb (s : State) (f : Framebuffer) (r : Reg) : (s.setFb f).readV r = s.readV r := rfl

@[simp] theorem readStack_setFb (s : State) (f : Framebuffer) (j : Fin 16) : (s.setFb f).readStack j = s.readStack j := rfl

/-! ### setStack -/

@[simp] theorem setStack_mem (s : State) (e : Vector Word 16) (k : Fin 17) : (s.setStack e k).mem = s.mem := rfl
@[simp] theorem setStack_v (s : State) (e : Vector Word 16) (k : Fin 17) : (s.setStack e k).v = s.v := rfl
@[simp] theorem setStack_idx (s : State) (e : Vector Word 16) (k : Fin 17) : (s.setStack e k).idx = s.idx := rfl
@[simp] theorem setStack_pc (s : State) (e : Vector Word 16) (k : Fin 17) : (s.setStack e k).pc = s.pc := rfl
@[simp] theorem setStack_sp (s : State) (e : Vector Word 16) (k : Fin 17) : (s.setStack e k).sp = k := rfl
@[simp] theorem setStack_stack (s : State) (e : Vector Word 16) (k : Fin 17) : (s.setStack e k).stack = e := rfl
@[simp] theorem setStack_dt (s : State) (e : Vector Word 16) (k : Fin 17) : (s.setStack e k).dt = s.dt := rfl
@[simp] theorem setStack_st (s : State) (e : Vector Word 16) (k : Fin 17) : (s.setStack e k).st = s.st := rfl
@[simp] theorem setStack_fb (s : State) (e : Vector Word 16) (k : Fin 17) : (s.setStack e k).fb = s.fb := rfl
@[simp] theorem setStack_wait (s : State) (e : Vector Word 16) (k : Fin 17) : (s.setStack e k).wait = s.wait := rfl
@[simp] theorem setStack_keys (s : State) (e : Vector Word 16) (k : Fin 17) : (s.setStack e k).keys = s.keys := rfl

@[simp] theorem readV_setStack (s : State) (e : Vector Word 16) (k : Fin 17) (r : Reg) : (s.setStack e k).readV r = s.readV r := rfl

@[simp] theorem readStack_setStack (s : State) (e : Vector Word 16) (k : Fin 17) (j : Fin 16) : (s.setStack e k).readStack j = e[j.val] := rfl

/-! ### withKeys -/

@[simp] theorem withKeys_mem (s : State) (k : Vector Bool 16) : (s.withKeys k).mem = s.mem := rfl
@[simp] theorem withKeys_v (s : State) (k : Vector Bool 16) : (s.withKeys k).v = s.v := rfl
@[simp] theorem withKeys_idx (s : State) (k : Vector Bool 16) : (s.withKeys k).idx = s.idx := rfl
@[simp] theorem withKeys_pc (s : State) (k : Vector Bool 16) : (s.withKeys k).pc = s.pc := rfl
@[simp] theorem withKeys_sp (s : State) (k : Vector Bool 16) : (s.withKeys k).sp = s.sp := rfl
@[simp] theorem withKeys_stack (s : State) (k : Vector Bool 16) : (s.withKeys k).stack = s.stack := rfl
@[simp] theorem withKeys_dt (s : State) (k : Vector Bool 16) : (s.withKeys k).dt = s.dt := rfl
@[simp] theorem withKeys_st (s : State) (k : Vector Bool 16) : (s.withKeys k).st = s.st := rfl
@[simp] theorem withKeys_fb (s : State) (k : Vector Bool 16) : (s.withKeys k).fb = s.fb := rfl
@[simp] theorem withKeys_wait (s : State) (k : Vector Bool 16) : (s.withKeys k).wait = s.wait := rfl
@[simp] theorem withKeys_keys (s : State) (k : Vector Bool 16) : (s.withKeys k).keys = k := rfl

@[simp] theorem readV_withKeys (s : State) (k : Vector Bool 16) (r : Reg) : (s.withKeys k).readV r = s.readV r := rfl

@[simp] theorem readStack_withKeys (s : State) (k : Vector Bool 16) (j : Fin 16) :
    (s.withKeys k).readStack j = s.readStack j := rfl

/-! ### withSound -/

@[simp] theorem withSound_mem (s : State) (b : Byte) : (s.withSound b).mem = s.mem := rfl
@[simp] theorem withSound_v (s : State) (b : Byte) : (s.withSound b).v = s.v := rfl
@[simp] theorem withSound_idx (s : State) (b : Byte) : (s.withSound b).idx = s.idx := rfl
@[simp] theorem withSound_pc (s : State) (b : Byte) : (s.withSound b).pc = s.pc := rfl
@[simp] theorem withSound_sp (s : State) (b : Byte) : (s.withSound b).sp = s.sp := rfl
@[simp] theorem withSound_stack (s : State) (b : Byte) : (s.withSound b).stack = s.stack := rfl
@[simp] theorem withSound_dt (s : State) (b : Byte) : (s.withSound b).dt = s.dt := rfl
@[simp] theorem withSound_fb (s : State) (b : Byte) : (s.withSound b).fb = s.fb := rfl
@[simp] theorem withSound_wait (s : State) (b : Byte) : (s.withSound b).wait = s.wait := rfl
@[simp] theorem withSound_keys (s : State) (b : Byte) : (s.withSound b).keys = s.keys := rfl
@[simp] theorem withSound_st (s : State) (b : Byte) : (s.withSound b).st = b := rfl

@[simp] theorem readV_withSound (s : State) (b : Byte) (r : Reg) : (s.withSound b).readV r = s.readV r := rfl

/-! ### timerUpdate -/

@[simp] theorem timerUpdate_mem (s : State) : (timerUpdate s).mem = s.mem := by unfold timerUpdate; split <;> rfl
@[simp] theorem timerUpdate_v (s : State) : (timerUpdate s).v = s.v := by unfold timerUpdate; split <;> rfl
@[simp] theorem timerUpdate_idx (s : State) : (timerUpdate s).idx = s.idx := by unfold timerUpdate; split <;> rfl
@[simp] theorem timerUpdate_pc (s : State) : (timerUpdate s).pc = s.pc := by unfold timerUpdate; split <;> rfl
@[simp] theorem timerUpdate_sp (s : State) : (timerUpdate s).sp = s.sp := by unfold timerUpdate; split <;> rfl
@[simp] theorem timerUpdate_stack (s : State) : (timerUpdate s).stack = s.stack := by unfold timerUpdate; split <;> rfl
@[simp] theorem timerUpdate_fb (s : State) : (timerUpdate s).fb = s.fb := by unfold timerUpdate; split <;> rfl
@[simp] theorem timerUpdate_wait (s : State) : (timerUpdate s).wait = s.wait := by unfold timerUpdate; split <;> rfl
@[simp] theorem timerUpdate_keys (s : State) : (timerUpdate s).keys = s.keys := by unfold timerUpdate; split <;> rfl

theorem timerUpdate_dt (s : State) :
    (timerUpdate s).dt = if s.wait = .running then tick s.dt else s.dt := by
  unfold timerUpdate; split <;> simp [*]

theorem timerUpdate_st (s : State) :
    (timerUpdate s).st = if s.wait = .running then tick s.st else s.st := by
  unfold timerUpdate; split <;> simp [*]

@[simp] theorem readV_timerUpdate (s : State) (r : Reg) : (timerUpdate s).readV r = s.readV r := by
  simp [State.readV]

@[simp] theorem readStack_timerUpdate (s : State) (k : Fin 16) : (timerUpdate s).readStack k = s.readStack k := by
  simp [State.readStack]

theorem tick_toNat (t : Byte) : (tick t).toNat = t.toNat - 1 := by
  unfold tick
  split
  · simp_all
  · rename_i h
    have h' : t.toNat ≠ 0 := fun e => h (BitVec.eq_of_toNat_eq (by simpa using e))
    have := t.isLt
    rw [BitVec.toNat_sub]; simp; omega

/-! ### The call stack: what a push and a pop can do -/

theorem pushCall_eq_some {s t : State} {w : Word} :
    s.pushCall w = some t ↔ ∃ h : s.sp.val < 16,
      t = s.setStack (s.stack.set s.sp.val w) ⟨s.sp.val + 1, by omega⟩ := by
  unfold State.pushCall
  split <;> simp_all [eq_comm]

theorem pushCall_eq_none {s : State} {w : Word} : s.pushCall w = none ↔ s.sp.val = 16 := by
  have := s.sp.isLt
  unfold State.pushCall
  split <;> simp <;> omega

theorem popCall_eq_some {s t : State} {w : Word} :
    s.popCall = some (w, t) ↔ ∃ h : 0 < s.sp.val,
      w = s.readStack ⟨s.sp.val - 1, by omega⟩ ∧ t = s.setStack s.stack ⟨s.sp.val - 1, by omega⟩ := by
  unfold State.popCall
  split <;> simp_all [eq_comm]

theorem popCall_eq_none {s : State} : s.popCall = none ↔ s.sp.val = 0 := by
  unfold State.popCall
  split <;> simp <;> omega

theorem readStack_set (s : State) (j : Nat) (hj : j < 16) (w : Word) (k : Fin 16) :
    (s.stack.set j w)[k.val] = if k.val = j then w else s.readStack k := by
  simp only [State.readStack, Vector.getElem_set]
  by_cases h : j = k.val
  · simp [h]
  · simp [h, Ne.symm h]

end Sys2Proof.Machine
end

