-- ==== Sys2Proof/Laws/Framebuffer.lean ====
section
/-! SUPPORT. What a pixel write does, said through the read of one entry, and that it keeps the canonical form. -/

namespace Sys2Proof.Machine

@[simp] theorem on_nil (k : Nat) : Framebuffer.on [] k = false := rfl

theorem on_iff_mem (f : Framebuffer) (k : Nat) : f.on k = true ↔ k ∈ f := by
  simp [Framebuffer.on]

theorem mem_insertEntry (j k : Nat) (f : Framebuffer) :
    j ∈ Framebuffer.insertEntry k f ↔ j = k ∨ j ∈ f := by
  induction f with
  | nil => simp [Framebuffer.insertEntry]
  | cons e f ih =>
    simp only [Framebuffer.insertEntry]
    split
    · simp
    · simp only [List.mem_cons, ih]; tauto

theorem mem_put (f : Framebuffer) (k j : Nat) (bit : Bool) :
    j ∈ f.put k bit ↔ if j = k then bit = true else j ∈ f := by
  unfold Framebuffer.put
  by_cases hb : bit <;> by_cases hj : j = k <;> simp [hb, hj, mem_insertEntry]

/-- Read after write: the entry written reads back, every other entry reads as before. -/
theorem on_put (f : Framebuffer) (k j : Nat) (bit : Bool) :
    (f.put k bit).on j = if j = k then bit else f.on j := by
  rw [Bool.eq_iff_iff, on_iff_mem, mem_put]
  by_cases hj : j = k <;> simp [hj, on_iff_mem]

theorem insertEntry_rising (k : Nat) (f : Framebuffer) (hf : f.Pairwise (· < ·)) (hk : ∀ j ∈ f, j ≠ k) :
    (Framebuffer.insertEntry k f).Pairwise (· < ·) := by
  induction f with
  | nil => simp [Framebuffer.insertEntry]
  | cons d f ih =>
    have ⟨hd, hf'⟩ := List.pairwise_cons.1 hf
    have hdk : d ≠ k := hk d (by simp)
    simp only [Framebuffer.insertEntry]
    split
    · rename_i hlt
      refine List.pairwise_cons.2 ⟨fun e he => ?_, hf⟩
      rcases List.mem_cons.1 he with rfl | he
      · exact hlt
      · exact lt_trans hlt (hd e he)
    · refine List.pairwise_cons.2 ⟨fun e he => ?_, ih hf' (fun e he => hk e (by simp [he]))⟩
      rcases (mem_insertEntry e k f).1 he with rfl | he
      · omega
      · exact hd e he

/-- A pixel write inside the grid keeps the canonical form. -/
theorem put_wf (f : Framebuffer) (k : Nat) (bit : Bool) (hf : f.wf) (hk : k < Config.fbSize) : (f.put k bit).wf := by
  have hr : Framebuffer.wf (f.filter (fun j => j != k)) :=
    ⟨hf.1.filter _, fun j hj => hf.2 j (List.mem_filter.1 hj).1⟩
  unfold Framebuffer.put
  by_cases hb : bit
  · simp only [hb, if_true]
    refine ⟨insertEntry_rising _ _ hr.1 (by intro j hj; simp at hj; exact hj.2), fun j hj => ?_⟩
    rcases (mem_insertEntry j k _).1 hj with rfl | hj
    · exact hk
    · exact hr.2 j hj
  · simp only [hb]; exact hr

end Sys2Proof.Machine
end

