-- ==== Sys2Proof/Laws/Draw.lean ====
section
/-! SUPPORT. What the sprite loops do: a draw is a run of pixel writes, and when no two of them go to one entry each
entry ends as its own bit and the collision test sees the framebuffer as it was before the draw (R194). -/

namespace Sys2Proof.Machine

/-- One pixel write: where it goes, if anywhere, and the bit. -/
abbrev PixelWrite := Option Nat × Bool

/-- The effect of one pixel write on the canvas. -/
def applyPixel (c : Canvas) (p : PixelWrite) : Canvas :=
  match p.1 with
  | some k => (c.1.put k p.2, c.2 || (p.2 && c.1.on k))
  | none => c

/-- The pixel writes of a draw, in the order of the loops. -/
def spritePixels (edge : DrawEdge) (x0 y0 : Byte) (row : Nat) : List Byte → List PixelWrite
  | [] => []
  | b :: bs =>
    (List.range 8).map (fun col => (pixelTarget edge x0 y0 row col, spriteBit b col)) ++
      spritePixels edge x0 y0 (row + 1) bs

theorem drawPixel_eq_applyPixel (edge : DrawEdge) (x0 y0 : Byte) (row : Nat) (b : Byte) (c : Canvas) (col : Nat) :
    drawPixel edge x0 y0 row b c col = applyPixel c (pixelTarget edge x0 y0 row col, spriteBit b col) := rfl

/-- The two loops are one run over the pixel writes. -/
theorem drawRows_eq_foldl (edge : DrawEdge) (x0 y0 : Byte) (row : Nat) (bs : List Byte) (c : Canvas) :
    drawRows edge x0 y0 row bs c = (spritePixels edge x0 y0 row bs).foldl applyPixel c := by
  induction bs generalizing row c with
  | nil => rfl
  | cons b bs ih =>
    simp only [drawRows, spritePixels, List.foldl_append, List.foldl_map, ih]
    rfl

theorem mem_spritePixels (edge : DrawEdge) (x0 y0 : Byte) (row : Nat) (bs : List Byte) (p : PixelWrite) :
    p ∈ spritePixels edge x0 y0 row bs ↔
      ∃ (r : Nat) (h : r < bs.length) (col : Nat), col < 8 ∧
        p = (pixelTarget edge x0 y0 (row + r) col, spriteBit bs[r] col) := by
  induction bs generalizing row with
  | nil => simp [spritePixels]
  | cons b bs ih =>
    simp only [spritePixels, List.mem_append, List.mem_map, List.mem_range, ih]
    constructor
    · rintro (⟨col, hc, rfl⟩ | ⟨r, hr, col, hc, rfl⟩)
      · exact ⟨0, by simp, col, hc, by simp⟩
      · exact ⟨r + 1, by simpa using hr, col, hc, by simp [Nat.add_assoc, Nat.add_comm 1]⟩
    · rintro ⟨r, hr, col, hc, rfl⟩
      cases r with
      | zero => exact .inl ⟨col, hc, by simp⟩
      | succ r =>
        exact .inr ⟨r, by simpa using hr, col, hc, by simp [Nat.add_assoc, Nat.add_comm 1]⟩

/-- No two of the writes go to one entry. -/
abbrev Apart (ps : List PixelWrite) : Prop := ps.Pairwise (fun p q => ∀ k, p.1 = some k → q.1 ≠ some k)

theorem applyPixel_on (c : Canvas) (p : PixelWrite) (k : Nat) :
    (applyPixel c p).1.on k = if p.1 = some k then p.2 else c.1.on k := by
  rcases p with ⟨_ | j, b⟩
  · simp [applyPixel]
  · by_cases h : k = j
    · simp [applyPixel, on_put, h]
    · have h' : ¬ j = k := fun e => h e.symm
      simp [applyPixel, on_put, h, h']

/-- An entry no write goes to is as before. -/
theorem foldl_on_untouched (ps : List PixelWrite) (c : Canvas) (k : Nat) (h : ∀ p ∈ ps, p.1 ≠ some k) :
    (ps.foldl applyPixel c).1.on k = c.1.on k := by
  induction ps generalizing c with
  | nil => rfl
  | cons p ps ih =>
    rw [List.foldl_cons, ih _ (fun q hq => h q (by simp [hq])), applyPixel_on,
      if_neg (h p (by simp))]

/-- An entry a write goes to ends as that write's bit: the draw overwrites (R193). -/
theorem foldl_on_written (ps : List PixelWrite) (c : Canvas) (hps : Apart ps) (k : Nat) (bit : Bool)
    (h : (some k, bit) ∈ ps) : (ps.foldl applyPixel c).1.on k = bit := by
  induction ps generalizing c with
  | nil => simp at h
  | cons p ps ih =>
    have ⟨hp, hps'⟩ := List.pairwise_cons.1 hps
    rw [List.foldl_cons]
    rcases List.mem_cons.1 h with rfl | h
    · rw [foldl_on_untouched _ _ _ (fun q hq => hp q hq k rfl), applyPixel_on]
      simp
    · exact ih _ hps' h

/-- The collision test of a draw sees the framebuffer as it was before the draw (R194). -/
theorem foldl_hit (ps : List PixelWrite) (c : Canvas) (hps : Apart ps) :
    (ps.foldl applyPixel c).2 = true ↔ c.2 = true ∨ ∃ k, (some k, true) ∈ ps ∧ c.1.on k = true := by
  induction ps generalizing c with
  | nil => simp
  | cons p ps ih =>
    have ⟨hp, hps'⟩ := List.pairwise_cons.1 hps
    rw [List.foldl_cons, ih _ hps']
    have hon : ∀ k, (some k, true) ∈ ps → (applyPixel c p).1.on k = c.1.on k := by
      intro k hk
      rw [applyPixel_on, if_neg]
      exact fun e => hp _ hk k e rfl
    have hhit : (applyPixel c p).2 = true ↔ c.2 = true ∨ ∃ k, (some k, true) = p ∧ c.1.on k = true := by
      rcases p with ⟨_ | j, b⟩
      · simp [applyPixel]
      · cases b <;> simp [applyPixel]
    rw [hhit]
    constructor
    · rintro ((h | ⟨k, rfl, hk⟩) | ⟨k, hk, hk'⟩)
      · exact .inl h
      · exact .inr ⟨k, by simp, hk⟩
      · exact .inr ⟨k, by simp [hk], by rw [← hon k hk]; exact hk'⟩
    · rintro (h | ⟨k, hk, hk'⟩)
      · exact .inl (.inl h)
      · rcases List.mem_cons.1 hk with e | hk
        · exact .inl (.inr ⟨k, e, hk'⟩)
        · exact .inr ⟨k, hk, by rw [hon k hk]; exact hk'⟩

theorem pixelTarget_wrap (x0 y0 : Byte) (row col : Nat) :
    pixelTarget .wrap x0 y0 row col = some ((y0.toNat + row) % 32 * 64 + (x0.toNat + col) % 64) := rfl

theorem pixelTarget_clip (x0 y0 : Byte) (row col : Nat) :
    pixelTarget .clip x0 y0 row col =
      if x0.toNat + col < 64 ∧ y0.toNat + row < 32 then some ((y0.toNat + row) * 64 + (x0.toNat + col)) else none := rfl

/-- Under `wrap`, two pixels of a sprite of at most 32 rows that go to one entry are the same pixel (R194). -/
theorem pixelTarget_wrap_inj (x0 y0 : Byte) {r r' c c' k : Nat} (hc : c < 8) (hc' : c' < 8)
    (hr : r < r' + 32) (hr' : r' < r + 32) (h : pixelTarget .wrap x0 y0 r c = some k)
    (h' : pixelTarget .wrap x0 y0 r' c' = some k) : r = r' ∧ c = c' := by
  simp only [pixelTarget_wrap, Option.some.injEq] at h h'
  omega

/-- Under `clip`, two pixels of a sprite that go to one entry are the same pixel. -/
theorem pixelTarget_clip_inj (x0 y0 : Byte) {r r' c c' k : Nat} (h : pixelTarget .clip x0 y0 r c = some k)
    (h' : pixelTarget .clip x0 y0 r' c' = some k) : r = r' ∧ c = c' := by
  simp only [pixelTarget_clip] at h h'
  split at h <;> split at h' <;> simp at h h'
  omega

/-- Every entry a draw writes is on the grid. -/
theorem pixelTarget_lt (edge : DrawEdge) (x0 y0 : Byte) {r c k : Nat} (h : pixelTarget edge x0 y0 r c = some k) :
    k < Config.fbSize := by
  show k < 2048
  cases edge with
  | wrap => simp only [pixelTarget_wrap, Option.some.injEq] at h; omega
  | clip => simp only [pixelTarget_clip] at h; split at h <;> simp at h; omega

/-- The writes of a sprite of at most 32 rows are apart, under either edge policy. -/
theorem spritePixels_apart (edge : DrawEdge) (x0 y0 : Byte) (row : Nat) (bs : List Byte) (hl : bs.length ≤ 32) :
    Apart (spritePixels edge x0 y0 row bs) := by
  induction bs generalizing row with
  | nil => simp [spritePixels]
  | cons b bs ih =>
    have hl' : bs.length + 1 ≤ 32 := hl
    have inj : ∀ {r r' c c' k : Nat}, c < 8 → c' < 8 → r < r' + 32 → r' < r + 32 →
        pixelTarget edge x0 y0 r c = some k → pixelTarget edge x0 y0 r' c' = some k → r = r' ∧ c = c' := by
      intro r r' c c' k hc hc' hr hr' h h'
      cases edge with
      | wrap => exact pixelTarget_wrap_inj x0 y0 hc hc' hr hr' h h'
      | clip => exact pixelTarget_clip_inj x0 y0 h h'
    refine List.pairwise_append.2 ⟨?_, ih _ (by omega), ?_⟩
    · rw [List.pairwise_map]
      refine List.Pairwise.imp_of_mem ?_ List.pairwise_lt_range
      intro a c ha hc hac k h h'
      have := (inj (List.mem_range.1 ha) (List.mem_range.1 hc) (by omega) (by omega) h h').2
      omega
    · intro p hp q hq k h h'
      obtain ⟨c, hc, rfl⟩ := List.mem_map.1 hp
      obtain ⟨r, hr, c', hc', rfl⟩ := (mem_spritePixels _ _ _ _ _ _).1 hq
      have := (inj (List.mem_range.1 hc) hc' (by omega) (by omega) h h').1
      omega

/-- A draw keeps the framebuffer's canonical form. -/
theorem foldl_wf (ps : List PixelWrite) (c : Canvas) (hc : c.1.wf) (h : ∀ p ∈ ps, ∀ k, p.1 = some k → k < Config.fbSize) :
    (ps.foldl applyPixel c).1.wf := by
  induction ps generalizing c with
  | nil => exact hc
  | cons p ps ih =>
    refine ih _ ?_ (fun q hq => h q (by simp [hq]))
    rcases p with ⟨_ | j, b⟩
    · exact hc
    · exact put_wf _ _ _ hc (h (some j, b) (by simp) j rfl)

@[simp] theorem spriteBytes_length (s : State) (n : Nat) : (spriteBytes s n).length = n := by
  simp [spriteBytes]

@[simp] theorem spriteBytes_getElem (s : State) (n r : Nat) (h : r < (spriteBytes s n).length) :
    (spriteBytes s n)[r] = s.mem.peek (s.idx.toNat + r) := by
  simp [spriteBytes, rowAddr]

@[simp] theorem spriteBytes_writeV (s : State) (n : Nat) (x : Reg) (b : Byte) :
    spriteBytes (s.writeV x b) n = spriteBytes s n := rfl

/-! ### What a draw does, said once for either edge policy -/

/-- The pixel writes of a draw from a state: VF has been reset when the coordinates are read (R195). -/
def drawPixels (edge : DrawEdge) (x y : Reg) (n : Nat) (s : State) : List PixelWrite :=
  spritePixels edge ((s.writeV vf 0).readV x) ((s.writeV vf 0).readV y) 0 (spriteBytes s n)

/-- Where a draw puts the sprite's pixel `(row, col)`, if anywhere. -/
def drawTarget (edge : DrawEdge) (x y : Reg) (s : State) (row col : Nat) : Option Nat :=
  pixelTarget edge ((s.writeV vf 0).readV x) ((s.writeV vf 0).readV y) row col

theorem drawSprite_eq (edge : DrawEdge) (x y : Reg) (n : Nat) (s : State) :
    drawSprite edge x y n s =
      ((s.writeV vf 0).setFb ((drawPixels edge x y n s).foldl applyPixel (s.fb, false)).1).writeV vf
        (collisionFlag ((drawPixels edge x y n s).foldl applyPixel (s.fb, false)).2) := by
  unfold drawPixels; rw [← drawRows_eq_foldl]; rfl

theorem mem_drawPixels (edge : DrawEdge) (x y : Reg) (n : Nat) (s : State) (p : PixelWrite) :
    p ∈ drawPixels edge x y n s ↔
      ∃ row col, row < n ∧ col < 8 ∧ p = (drawTarget edge x y s row col, spriteAt s row col) := by
  have e : ∀ row col, spriteBit (s.mem.peek (s.idx.toNat + row)) col = spriteAt s row col := fun _ _ => rfl
  unfold drawPixels
  rw [mem_spritePixels]
  constructor
  · rintro ⟨r, h, c, hc, rfl⟩
    exact ⟨r, c, by simpa using h, hc, by simp [e, drawTarget]⟩
  · rintro ⟨r, c, h, hc, rfl⟩
    exact ⟨r, by simpa using h, c, hc, by simp [e, drawTarget]⟩

theorem drawPixels_apart (edge : DrawEdge) (x y : Reg) {n : Nat} (s : State) (hn : n ≤ 15) :
    Apart (drawPixels edge x y n s) := spritePixels_apart _ _ _ _ _ (by simp; omega)

/-- A pixel's entry ends as the sprite's bit. -/
theorem drawSprite_on_target {edge : DrawEdge} {x y : Reg} {n : Nat} {s : State} {k row col : Nat} (hn : n ≤ 15)
    (hr : row < n) (hc : col < 8) (ht : drawTarget edge x y s row col = some k) :
    (drawSprite edge x y n s).fb.on k = spriteAt s row col := by
  rw [drawSprite_eq]
  exact foldl_on_written _ _ (drawPixels_apart _ _ _ _ hn) _ _
    ((mem_drawPixels _ _ _ _ _ _).2 ⟨row, col, hr, hc, by rw [ht]⟩)

/-- An entry that is no pixel's stays as it was. -/
theorem drawSprite_on_other {edge : DrawEdge} {x y : Reg} {n : Nat} {s : State} {k : Nat}
    (h : ∀ row col, row < n → col < 8 → drawTarget edge x y s row col ≠ some k) :
    (drawSprite edge x y n s).fb.on k = s.fb.on k := by
  rw [drawSprite_eq]
  refine foldl_on_untouched _ _ _ fun p hp => ?_
  obtain ⟨r, c, hr, hc, rfl⟩ := (mem_drawPixels _ _ _ _ _ _).1 hp
  exact h r c hr hc

/-- VF ends 1 exactly when a set bit's entry was on before the draw. -/
theorem drawSprite_vf {edge : DrawEdge} {x y : Reg} {n : Nat} {s : State} (hn : n ≤ 15) :
    (drawSprite edge x y n s).readV vf = 1 ↔ ∃ row col k, row < n ∧ col < 8 ∧
      drawTarget edge x y s row col = some k ∧ spriteAt s row col = true ∧ s.fb.on k = true := by
  have hflag : ∀ b : Bool, collisionFlag b = 1 ↔ b = true := by decide
  rw [drawSprite_eq, readV_writeV_same, hflag, foldl_hit _ _ (drawPixels_apart _ _ _ _ hn)]
  simp only [mem_drawPixels]
  constructor
  · rintro (h | ⟨k, ⟨r, c, hr, hc, e⟩, hk⟩)
    · simp at h
    · simp at e; exact ⟨r, c, k, hr, hc, e.1.symm, e.2, hk⟩
  · rintro ⟨r, c, k, hr, hc, e, e2, hk⟩
    exact .inr ⟨k, ⟨r, c, hr, hc, by rw [e, e2]⟩, hk⟩

/-- A draw leaves the framebuffer in its canonical form. -/
theorem drawSprite_fb_wf (edge : DrawEdge) (x y : Reg) (n : Nat) {s : State} (h : s.fb.wf) :
    (drawSprite edge x y n s).fb.wf := by
  rw [drawSprite_eq]
  refine foldl_wf _ _ h fun p hp k hk => ?_
  obtain ⟨r, c, _, _, rfl⟩ := (mem_drawPixels _ _ _ _ _ _).1 hp
  exact pixelTarget_lt _ _ _ hk

theorem drawOrigin_eq (s : State) (r : Reg) : ((s.writeV vf 0).readV r).toNat = drawOrigin s r := by
  rw [readV_writeV, drawOrigin]; split <;> rfl

theorem drawTarget_wrap (x y : Reg) (s : State) (row col : Nat) :
    drawTarget .wrap x y s row col = some (wrapEntry s x y row col) := by
  rw [drawTarget, pixelTarget_wrap, drawOrigin_eq, drawOrigin_eq]; rfl

theorem drawTarget_clip (x y : Reg) (s : State) (row col : Nat) :
    drawTarget .clip x y s row col =
      if drawOrigin s x + col ≤ 63 ∧ drawOrigin s y + row ≤ 31 then some (wrapEntry s x y row col) else none := by
  rw [drawTarget, pixelTarget_clip, drawOrigin_eq, drawOrigin_eq]
  unfold wrapEntry
  split
  · rw [if_pos (by omega), Nat.mod_eq_of_lt (by omega), Nat.mod_eq_of_lt (by omega)]
  · rw [if_neg (by omega)]

end Sys2Proof.Machine
end

