-- ==== Sys2Proof/Laws/Memory.lean ====
section
/-! SUPPORT. What the memory operations do, said through the read of one byte, and that they keep the canonical
form. -/

namespace Sys2Proof.Machine

@[simp] theorem peek_nil (a : Nat) : Memory.peek [] a = resetByte a := rfl

theorem peek_cons (c : Host.Cell) (m : Memory) (a : Nat) :
    Memory.peek (c :: m) a = if c.1 = a then c.2 else Memory.peek m a := by
  simp only [Memory.peek, List.find?_cons]
  by_cases h : c.1 = a
  · simp [h]
  · simp [h, beq_eq_false_iff_ne.2 h]

theorem peek_insertCell (c : Host.Cell) (m : Memory) (a : Nat) (hc : ∀ d ∈ m, d.1 ≠ c.1) :
    Memory.peek (Memory.insertCell c m) a = if c.1 = a then c.2 else Memory.peek m a := by
  induction m with
  | nil => simp [Memory.insertCell, peek_cons]
  | cons d m ih =>
    have hd : d.1 ≠ c.1 := hc d (by simp)
    have ih := ih (fun e he => hc e (by simp [he]))
    simp only [Memory.insertCell]
    split
    · simp [peek_cons]
    · rw [peek_cons, ih, peek_cons]
      by_cases h1 : d.1 = a
      · have : ¬ c.1 = a := fun e => hd (h1.trans e.symm)
        simp [h1, this]
      · simp [h1]

theorem peek_filter (m : Memory) (a k : Nat) :
    Memory.peek (m.filter (fun c => c.1 != a)) k = if k = a then resetByte k else m.peek k := by
  induction m with
  | nil => simp
  | cons c m ih =>
    rw [List.filter_cons]
    by_cases h : c.1 = a
    · have : ¬ (c.1 != a) = true := by simp [h]
      rw [if_neg this, ih, peek_cons]
      by_cases hk : k = a
      · simp [hk]
      · have : ¬ c.1 = k := fun e => hk (e.symm.trans h)
        simp [hk, this]
    · have : (c.1 != a) = true := by simp [h]
      rw [if_pos this, peek_cons, ih, peek_cons]
      by_cases hk : k = a
      · have : ¬ c.1 = k := fun e => h (e.trans hk)
        simp [hk]
        intro e; exact absurd e h
      · simp [hk]

/-- Read after write: the byte written reads back, every other byte reads as before. -/
theorem peek_poke (m : Memory) (a k : Nat) (b : Byte) :
    (m.poke a b).peek k = if k = a then b else m.peek k := by
  unfold Memory.poke
  by_cases hb : b = resetByte a
  · rw [if_pos hb, peek_filter]
    by_cases hk : k = a <;> simp [hk, hb]
  · rw [if_neg hb, peek_insertCell _ _ _ (by intro d hd; simp at hd; exact hd.2), peek_filter]
    by_cases hk : k = a
    · simp [hk]
    · have : ¬ a = k := fun e => hk e.symm
      simp [hk, this]

theorem mem_insertCell (c d : Host.Cell) (m : Memory) :
    d ∈ Memory.insertCell c m ↔ d = c ∨ d ∈ m := by
  induction m with
  | nil => simp [Memory.insertCell]
  | cons e m ih =>
    simp only [Memory.insertCell]
    split
    · simp
    · simp only [List.mem_cons, ih]; tauto

theorem insertCell_rising (c : Host.Cell) (m : Memory) (hm : m.Pairwise (fun c d => c.1 < d.1))
    (hc : ∀ d ∈ m, d.1 ≠ c.1) : (Memory.insertCell c m).Pairwise (fun c d => c.1 < d.1) := by
  induction m with
  | nil => simp [Memory.insertCell]
  | cons d m ih =>
    have ⟨hd, hm'⟩ := List.pairwise_cons.1 hm
    have hdc : d.1 ≠ c.1 := hc d (by simp)
    simp only [Memory.insertCell]
    split
    · rename_i hlt
      refine List.pairwise_cons.2 ⟨fun e he => ?_, hm⟩
      rcases List.mem_cons.1 he with rfl | he
      · exact hlt
      · exact lt_trans hlt (hd e he)
    · refine List.pairwise_cons.2 ⟨fun e he => ?_, ih hm' (fun e he => hc e (by simp [he]))⟩
      rcases (mem_insertCell c e m).1 he with rfl | he
      · omega
      · exact hd e he

/-- A store inside memory keeps the canonical form. -/
theorem poke_wf (m : Memory) (a : Nat) (b : Byte) (hm : m.wf) (ha : a < Config.memSize) : (m.poke a b).wf := by
  have hf : Memory.wf (m.filter (fun c => c.1 != a)) :=
    ⟨hm.1.filter _, fun c hc => hm.2 c (List.mem_filter.1 hc).1⟩
  unfold Memory.poke
  by_cases hb : b = resetByte a
  · rw [if_pos hb]; exact hf
  · rw [if_neg hb]
    refine ⟨insertCell_rising _ _ hf.1 (by intro d hd; simp at hd; exact hd.2), fun c hc => ?_⟩
    rcases (mem_insertCell _ c _).1 hc with rfl | hc
    · exact ⟨ha, hb⟩
    · exact hf.2 c hc

/-- Storing consecutive bytes: each reads back, every other address reads as before. -/
theorem peek_pokes (bs : List Byte) (m : Memory) (a k : Nat) :
    (m.pokes a bs).peek k = if a ≤ k then bs.getD (k - a) (m.peek k) else m.peek k := by
  induction bs generalizing m a with
  | nil => simp [Memory.pokes]
  | cons b bs ih =>
    rw [Memory.pokes, ih, peek_poke]
    rcases Nat.lt_trichotomy a k with h | h | h
    · have e : k - a = (k - (a + 1)) + 1 := by omega
      have h1 : a + 1 ≤ k := h
      have h2 : a ≤ k := by omega
      have h3 : ¬ k = a := by omega
      rw [if_pos h1, if_pos h2, if_neg h3, e, List.getD_cons_succ]
    · subst h; simp
    · have h1 : ¬ a + 1 ≤ k := by omega
      have h2 : ¬ a ≤ k := by omega
      have h3 : ¬ k = a := by omega
      rw [if_neg h1, if_neg h2, if_neg h3]

/-- Storing consecutive bytes inside memory keeps the canonical form. -/
theorem pokes_wf (bs : List Byte) (m : Memory) (a : Nat) (hm : m.wf) (ha : a + bs.length ≤ Config.memSize) :
    (m.pokes a bs).wf := by
  induction bs generalizing m a with
  | nil => exact hm
  | cons b bs ih =>
    have h : a + (bs.length + 1) ≤ 4096 := ha
    exact ih _ _ (poke_wf m a b hm (show a < 4096 by omega)) (show a + 1 + bs.length ≤ 4096 by omega)

/-! ### The checked reads -/

theorem memCheck_eq_none {a n : Nat} : memCheck a n = none ↔ a + n ≤ 4096 := by
  unfold memCheck; split <;> simp_all

theorem memCheck_eq_some {a n bad : Nat} : memCheck a n = some bad ↔ 4096 < a + n ∧ bad = max a 4096 := by
  unfold memCheck; split <;> simp_all [eq_comm]

theorem memRead1_ok {m : Memory} {a : Nat} (h : a < 4096) : memRead1 m a = .ok (m.peek a) := by
  simp [memRead1, memCheck_eq_none.2 (show a + 1 ≤ 4096 from h)]

theorem memRead2_ok {m : Memory} {a : Nat} (h : a + 2 ≤ 4096) :
    memRead2 m a = .ok (wordOfBytes (m.peek a) (m.peek (a + 1))) := by
  simp [memRead2, memCheck_eq_none.2 h]

theorem memRead2_error {m : Memory} {a : Nat} (h : 4096 < a + 2) : memRead2 m a = .error (max a 4096) := by
  simp only [memRead2, memCheck_eq_some.2 ⟨h, rfl⟩]

theorem wordOfBytes_toNat (hi lo : Byte) : (wordOfBytes hi lo).toNat = hi.toNat * 256 + lo.toNat := by
  unfold wordOfBytes
  rw [BitVec.toNat_append, ← Nat.shiftLeft_add_eq_or_of_lt (by exact lo.isLt), Nat.shiftLeft_eq]

theorem wordOfBytes_highByte_lowByte (w : Word) : wordOfBytes (highByte w) (lowByte w) = w := by
  have h : ∀ k, k < 16 → (wordOfBytes (highByte w) (lowByte w)).getLsbD k = w.getLsbD k := by
    intro k hk
    simp only [wordOfBytes, highByte, lowByte, BitVec.getLsbD_append, BitVec.getLsbD_extractLsb']
    by_cases h8 : k < 8
    · simp [h8]
    · have : 8 + (k - 8) = k := by omega
      simp [h8, this, show k - 8 < 8 by omega]
  exact BitVec.eq_of_getLsbD_eq h

end Sys2Proof.Machine
end

