-- ==== Sys2Proof/Laws/Exec.lean ====
section
/-! SUPPORT. What each dispatch answers, one equation per instruction and case, and what every dispatch keeps. -/

namespace Sys2Proof.Machine

@[simp] theorem finish_eq_next (p : Word) (s t : State) :
    finish p s = .next t ↔ t = (s.setPc p).setWait .running := by
  simp [finish, eq_comm]

@[simp] theorem finish_ne_fault (p : Word) (s : State) (f : Fault) : finish p s ≠ .fault f := by simp [finish]

@[simp] theorem finishWaiting_eq_next (x : Reg) (s t : State) :
    finishWaiting x s = .next t ↔ t = s.setWait (.awaitingKey x) := by
  simp [finishWaiting, eq_comm]

@[simp] theorem finishWaiting_ne_fault (x : Reg) (s : State) (f : Fault) : finishWaiting x s ≠ .fault f := by
  simp [finishWaiting]

@[simp] theorem raise_ne_next (f : Fault) (t : State) : raise f ≠ .next t := by simp [raise]

@[simp] theorem raise_eq_fault (f g : Fault) : raise f = .fault g ↔ f = g := by simp [raise]

/-! ### Control transfer -/

theorem exec_ret_of_pos (s : State) (h : 0 < s.sp.val) :
    exec .ret s = 
      .next (((s.setStack s.stack ⟨s.sp.val - 1, by omega⟩).setPc
        (s.readStack ⟨s.sp.val - 1, by omega⟩ + 2)).setWait .running) := by
  have hp := popCall_eq_some.2 ⟨h, rfl, rfl⟩
  simp only [exec, execRet, hp]
  rfl

theorem exec_ret_of_zero (s : State) (h : s.sp.val = 0) : exec .ret s = .fault (.stackUnderflow s.pc 0x00EE) := by
  simp only [exec, execRet, popCall_eq_none.2 h]
  rfl

theorem exec_call_of_lt (nnn : Addr) (s : State) (h : s.sp.val < 16) :
    exec (.call nnn) s = 
      .next (((s.setStack (s.stack.set s.sp.val s.pc) ⟨s.sp.val + 1, by omega⟩).setPc
        (zextAddr nnn)).setWait .running) := by
  have hp := (pushCall_eq_some (s := s) (w := s.pc)).2 ⟨h, rfl⟩
  simp only [exec, execCall, hp]
  rfl

theorem exec_call_of_full (nnn : Addr) (s : State) (h : s.sp.val = 16) :
    exec (.call nnn) s = .fault (.stackOverflow s.pc (encode (.call nnn))) := by
  simp only [exec, execCall, pushCall_eq_none.2 h]
  rfl

/-! ### Display -/

theorem spriteFault_eq_none (s : State) (n : Nat) : spriteFault s n = none ↔ n = 0 ∨ s.idx.toNat + n ≤ 4096 := by
  unfold spriteFault
  split
  · simp [*]
  · simp [*, memCheck_eq_none]

theorem spriteFault_eq_some (s : State) (n bad : Nat) :
    spriteFault s n = some bad ↔ n ≠ 0 ∧ 4096 < s.idx.toNat + n ∧ bad = max s.idx.toNat 4096 := by
  unfold spriteFault
  split
  · simp [*]
  · simp [*, memCheck_eq_some]

theorem exec_drw_of_inside (x y : Reg) (n : Nat) (s : State) (h : n = 0 ∨ s.idx.toNat + n ≤ 4096) :
    exec (.drw x y n) s = .next (((drawSprite drawEdge x y n s).setPc (s.pc + 2)).setWait .running) := by
  simp only [exec, execDrw, (spriteFault_eq_none s n).2 h]
  rfl

theorem exec_drw_of_outside (x y : Reg) (n : Nat) (s : State) (hn : n ≠ 0) (h : 4096 < s.idx.toNat + n) :
    exec (.drw x y n) s =
      .fault (.addressOutOfRange s.pc (encode (.drw x y n)) (BitVec.ofNat 16 (max s.idx.toNat 4096))) := by
  simp only [exec, execDrw, (spriteFault_eq_some s n _).2 ⟨hn, h, rfl⟩]
  rfl

/-! ### Timer read and key wait -/

theorem lowestKey_eq_none (keys : Vector Bool 16) : lowestKey keys = none ↔ ∀ k : Fin 16, keys[k.val] = false := by
  simp [lowestKey, List.find?_eq_none]

theorem lowestKey_eq_some (keys : Vector Bool 16) (k : Fin 16) :
    lowestKey keys = some k ↔ keys[k.val] = true ∧ ∀ j : Fin 16, j < k → keys[j.val] = false := by
  have h : ∀ f : Fin 16 → Bool, (List.finRange 16).find? f = some k ↔ f k = true ∧ ∀ j, j < k → f j = false := by
    intro f
    rw [List.find?_eq_some_iff_getElem]
    constructor
    · rintro ⟨h1, i, hi, e, h2⟩
      simp at e
      refine ⟨h1, fun j hj => ?_⟩
      have := h2 j.val (by have := congrArg Fin.val e; simp at this; omega)
      simpa using this
    · rintro ⟨h1, h2⟩
      refine ⟨h1, k.val, by simp, by simp, fun j hj => ?_⟩
      have := h2 ⟨j, by omega⟩ (by simpa [Fin.lt_def] using hj)
      simpa using this
  exact h _

theorem exec_ldVxK_of_none (x : Reg) (s : State) (h : lowestKey s.keys = none) :
    exec (.ldVxK x) s = .next (s.setWait (.awaitingKey x)) := by
  simp only [exec, execLdVxK, h]
  rfl

theorem exec_ldVxK_of_some (x : Reg) (s : State) (k : Fin 16) (h : lowestKey s.keys = some k) :
    exec (.ldVxK x) s =
      .next (((s.writeV x (BitVec.ofNat 8 k.val)).setPc (s.pc + 2)).setWait .running) := by
  simp only [exec, execLdVxK, h]
  rfl

/-! ### What every dispatch keeps -/

/-- A completed dispatch writes neither memory, nor a timer, nor a key input (R20, R34, R37, R70). -/
theorem exec_keeps {i : Instr} {s t : State} (h : exec i s = .next t) :
    t.mem = s.mem ∧ t.dt = s.dt ∧ t.st = s.st ∧ t.keys = s.keys := by
  cases i <;> simp only [exec, execCls, execRet, execJp, execCall, execSeVxNn, execSneVxNn, execSeVxVy, execLdVxNn,
    execAddVxNn, execLdVxVy, execOr, execAnd, execXor, execAddVxVy, execSub, execShr, execSubn, execShl, execSneVxVy,
    execLdINnn, execJpV0Nnn, execDrw, execLdVxDt, execLdVxK, skipWhen, finish_eq_next] at h
  case ret =>
    split at h
    · simp at h
    · rename_i heq; obtain ⟨_, _, rfl⟩ := popCall_eq_some.1 heq; simp at h; simp [h]
  case call =>
    split at h
    · simp at h
    · rename_i heq; obtain ⟨_, rfl⟩ := pushCall_eq_some.1 heq; simp at h; simp [h]
  case drw =>
    split at h
    · simp at h
    · simp at h; simp [h, drawSprite]
  case ldVxK =>
    split at h <;> simp at h <;> simp [h]
  all_goals subst h; simp

/-- No dispatch is refused: every instruction has its meaning. -/
theorem exec_ne_refused (i : Instr) (s : State) (r : Refusal) : exec i s ≠ .refused r := by
  cases i <;> simp only [exec, execCls, execRet, execJp, execCall, execSeVxNn, execSneVxNn, execSeVxVy, execLdVxNn,
    execAddVxNn, execLdVxVy, execOr, execAnd, execXor, execAddVxVy, execSub, execShr, execSubn, execShl, execSneVxVy,
    execLdINnn, execJpV0Nnn, execDrw, execLdVxDt, execLdVxK, skipWhen] <;>
    (try split) <;> simp [finish, finishWaiting, raise]

end Sys2Proof.Machine
end

