-- ==== Sys2Proof/Laws/Cycle.lean ====
section
/-! SUPPORT. What a cycle can do: the three ways it goes, and what a completed one was made of. -/

namespace Sys2Proof.Machine

theorem fetch_ok {s : State} (h : s.pc.toNat ≤ 4094) :
    fetch s = .ok (nextWord s) :=
  memRead2_ok (by omega)

theorem fetch_error {s : State} (h : 4094 < s.pc.toNat) : fetch s = .error (max s.pc.toNat 4096) :=
  memRead2_error (by omega)

theorem fetch_eq_ok {s : State} {w : Word} (h : fetch s = .ok w) : s.pc.toNat ≤ 4094 := by
  by_contra hc
  rw [fetch_error (by omega)] at h
  simp at h

/-- What a successful fetch read. -/
theorem fetch_eq_nextWord {s : State} {w : Word} (h : fetch s = .ok w) : w = nextWord s := by
  have := fetch_ok (fetch_eq_ok h)
  rw [h] at this
  exact Except.ok.inj this

@[simp] theorem fetch_withKeys (s : State) (k : Vector Bool 16) : fetch (s.withKeys k) = fetch s := rfl

@[simp] theorem fetch_withSound (s : State) (b : Byte) : fetch (s.withSound b) = fetch s := rfl

theorem step_of_fetch_error {s : State} {bad : Nat} (h : fetch s = .error bad) :
    step s = .fault (.addressOutOfRange s.pc 0 (BitVec.ofNat 16 bad)) := by
  simp only [step, cycle, h]; rfl

theorem step_of_reject {s : State} {w : Word} {r : Reject} (h : fetch s = .ok w) (hd : decode w = .error r) :
    step s = .fault (.unrecognizedOpcode s.pc w) := by
  simp only [step, cycle, h, hd]; rfl

theorem step_of_decode {s : State} {w : Word} {i : Instr} (h : fetch s = .ok w) (hd : decode w = .ok i) :
    step s = afterDispatch (exec i s) := by
  simp only [step, cycle, h, hd]

@[simp] theorem afterDispatch_eq_next (r : Result) (t : State) :
    afterDispatch r = .next t ↔ ∃ u, r = .next u ∧ t = timerUpdate u := by
  cases r <;> simp [afterDispatch, eq_comm]

@[simp] theorem afterDispatch_eq_fault (r : Result) (f : Fault) : afterDispatch r = .fault f ↔ r = .fault f := by
  cases r <;> simp [afterDispatch]

@[simp] theorem afterDispatch_eq_refused (r : Result) (q : Refusal) :
    afterDispatch r = .refused q ↔ r = .refused q := by
  cases r <;> simp [afterDispatch]

/-- The three ways a cycle goes (R120, R220). -/
theorem step_cases (s : State) :
    (4094 < s.pc.toNat ∧ step s = .fault (.addressOutOfRange s.pc 0 (BitVec.ofNat 16 (max s.pc.toNat 4096)))) ∨
    (∃ w r, fetch s = .ok w ∧ decode w = .error r ∧ step s = .fault (.unrecognizedOpcode s.pc w)) ∨
    (∃ w i, fetch s = .ok w ∧ decode w = .ok i ∧ step s = afterDispatch (exec i s)) := by
  by_cases h : s.pc.toNat ≤ 4094
  · have hf := fetch_ok h
    cases hd : decode (nextWord s) with
    | error r => exact .inr (.inl ⟨_, r, hf, hd, step_of_reject hf hd⟩)
    | ok i => exact .inr (.inr ⟨_, i, hf, hd, step_of_decode hf hd⟩)
  · exact .inl ⟨by omega, step_of_fetch_error (fetch_error (by omega))⟩

/-- What a completed cycle was made of. -/
theorem step_eq_next {s t : State} (h : step s = .next t) :
    ∃ w i u, fetch s = .ok w ∧ decode w = .ok i ∧ exec i s = .next u ∧ t = timerUpdate u := by
  rcases step_cases s with ⟨_, e⟩ | ⟨_, _, _, _, e⟩ | ⟨w, i, hw, hi, e⟩
  · simp [e] at h
  · simp [e] at h
  · rw [e, afterDispatch_eq_next] at h
    obtain ⟨u, hu, rfl⟩ := h
    exact ⟨w, i, u, hw, hi, hu, rfl⟩

/-- One step of a run: where it completes, the rest of the run goes on from there. -/
theorem run_succ_of_next (M : Host.Core) (k : Nat) {s t : M.State} (h : M.step s = .next t) :
    M.run (k + 1) s = M.run k t := by
  rw [Host.Core.run, h]

end Sys2Proof.Machine
end

