-- ==== Sys2Proof/Laws/Encoding.lean ====
section
/-! SUPPORT. The words of R92's formats as numbers, and what a mask of R96's table leaves of a word. -/

namespace Sys2Proof

open Sys2Proof.Machine

theorem wordA_eq_formatA (g : Nat) (nnn : Addr) : wordA g nnn = formatA (BitVec.ofNat 4 g) nnn := by
  have := nnn.isLt
  apply BitVec.eq_of_toNat_eq
  rw [formatA_toNat, wordA, BitVec.toNat_ofNat, BitVec.toNat_ofNat]; omega

theorem wordRI_eq_formatRI (g : Nat) (x : Reg) (nn : Byte) :
    wordRI g x nn.toNat = formatRI (BitVec.ofNat 4 g) x nn := by
  have := nn.isLt
  have := x.isLt
  apply BitVec.eq_of_toNat_eq
  rw [formatRI_toNat, wordRI, BitVec.toNat_ofNat, BitVec.toNat_ofNat]; omega

theorem wordRR_eq_formatRR (g : Nat) (x y : Reg) {n : Nat} (hn : n < 16) :
    wordRR g x y n = formatRR (BitVec.ofNat 4 g) x y (BitVec.ofNat 4 n) := by
  have := y.isLt
  have := x.isLt
  apply BitVec.eq_of_toNat_eq
  rw [formatRR_toNat, wordRR, BitVec.toNat_ofNat, BitVec.toNat_ofNat, BitVec.toNat_ofNat]; omega

/-- The mask 0xF000 leaves the group. -/
theorem and_F000 (w : Word) : w &&& 0xF000 = (fieldG w ++ (0#12) : Word) := by
  apply BitVec.eq_of_getLsbD_eq; intro i hi
  simp only [fieldG, BitVec.getLsbD_and, BitVec.getLsbD_append, BitVec.getLsbD_extractLsb']
  interval_cases i <;> simp

/-- The mask 0xF00F leaves the group and the low nibble. -/
theorem and_F00F (w : Word) : w &&& 0xF00F = (fieldG w ++ ((0#8) ++ fieldN w) : Word) := by
  apply BitVec.eq_of_getLsbD_eq; intro i hi
  simp only [fieldG, fieldN, BitVec.getLsbD_and, BitVec.getLsbD_append, BitVec.getLsbD_extractLsb']
  interval_cases i <;> simp

/-- The mask 0xF0FF leaves the group and the low byte. -/
theorem and_F0FF (w : Word) : w &&& 0xF0FF = (fieldG w ++ ((0#4) ++ fieldNN w) : Word) := by
  apply BitVec.eq_of_getLsbD_eq; intro i hi
  simp only [fieldG, fieldNN, BitVec.getLsbD_and, BitVec.getLsbD_append, BitVec.getLsbD_extractLsb']
  interval_cases i <;> simp

/-- The mask 0xFFFF leaves the word. -/
theorem and_FFFF (w : Word) : w &&& 0xFFFF = w := BitVec.and_allOnes

end Sys2Proof
end

