-- ==== Sys2Proof/Laws/Frame.lean ====
section
/-! SUPPORT. The frames of a dispatch that ends with `pc` and `wait` written, and the operands' numbers. -/

namespace Sys2Proof.Machine

theorem zextAddr_toNat (nnn : Addr) : (zextAddr nnn).toNat = nnn.toNat := by
  have := nnn.isLt
  simp [zextAddr]; omega

theorem zextByte_toNat (b : Byte) : (zextByte b).toNat = b.toNat := by
  have := b.isLt
  simp [zextByte]; omega

/-- A dispatch that changed nothing but general registers before it ended. -/
theorem onlyRegisters_of_v {s u : State} (ws : List Reg) (p : Word) (hu : u = { s with v := u.v })
    (h : ∀ r, r ∉ ws → u.readV r = s.readV r) : OnlyRegisters ws s ((u.setPc p).setWait .running) := by
  refine ⟨h, ?_, ⟨?_, fun _ => ?_⟩, fun _ => ?_, fun _ => ?_, ⟨?_, ?_, ?_⟩, rfl⟩ <;> (rw [hu]; rfl)

/-- Nothing but `pc` and `wait` written. -/
theorem onlyRegisters_nil (s : State) (p : Word) : OnlyRegisters [] s ((s.setPc p).setWait .running) :=
  onlyRegisters_of_v [] p rfl (fun _ _ => rfl)

/-- One general register written. -/
theorem onlyRegisters_one (s : State) (x : Reg) (b : Byte) (p : Word) :
    OnlyRegisters [x] s (((s.writeV x b).setPc p).setWait .running) :=
  onlyRegisters_of_v _ p rfl (fun r hr => readV_writeV_ne s b (by simpa using hr))

/-- Two general registers written. -/
theorem onlyRegisters_two (s : State) (x y : Reg) (b c : Byte) (p : Word) :
    OnlyRegisters [x, y] s ((((s.writeV x b).writeV y c).setPc p).setWait .running) :=
  onlyRegisters_of_v _ p rfl (fun r hr => by
    simp only [List.mem_cons, List.not_mem_nil, or_false, not_or] at hr
    simp [hr.1, hr.2])

/-- The frame does not depend on the order the written registers are listed in. -/
theorem OnlyRegisters.mono {ws ws' : List Reg} {s t : State} (h : OnlyRegisters ws s t) (hw : ∀ r ∈ ws, r ∈ ws') :
    OnlyRegisters ws' s t :=
  ⟨fun r hr => h.1 r (fun e => hr (hw r e)), h.2⟩

end Sys2Proof.Machine
end

