-- ==== Sys2Proof/Laws/PerInstr.lean ====
section
/-! SUPPORT. Statements about instructions as syntax, one lemma per constructor. -/

namespace Sys2Proof.Laws.RoundTrip

/-- The word of a well-formed instruction decodes to that instruction (R92, R96). -/
def Statement (i : Instr) : Prop := i.wf = true → decode (encode i) = .ok i

theorem cls : Statement .cls := fun _ => rfl

theorem ret : Statement .ret := fun _ => rfl

theorem jp (nnn : Addr) : Statement (.jp nnn) := fun _ =>
  (decode_formatA 0x1#4 nnn).trans (congrArg (fun a => Except.ok (Instr.jp a)) (fieldNNN_formatA 0x1#4 nnn))

theorem call (nnn : Addr) : Statement (.call nnn) := fun _ =>
  (decode_formatA 0x2#4 nnn).trans (congrArg (fun a => Except.ok (Instr.call a)) (fieldNNN_formatA 0x2#4 nnn))

theorem seVxNn (x : Reg) (nn : Byte) : Statement (.seVxNn x nn) := by
  intro _
  refine (decode_formatRI 0x3#4 x nn).trans ?_
  show Except.ok (Instr.seVxNn (fieldX _) (fieldNN _)) = _
  rw [fieldX_formatRI, fieldNN_formatRI]

theorem sneVxNn (x : Reg) (nn : Byte) : Statement (.sneVxNn x nn) := by
  intro _
  refine (decode_formatRI 0x4#4 x nn).trans ?_
  show Except.ok (Instr.sneVxNn (fieldX _) (fieldNN _)) = _
  rw [fieldX_formatRI, fieldNN_formatRI]

theorem seVxVy (x y : Reg) : Statement (.seVxVy x y) := by
  intro _
  refine (decode_formatRR 0x5#4 x y 0x0#4).trans ?_
  show (if fieldN _ = 0#4 then Except.ok (Instr.seVxVy (fieldX _) (fieldY _)) else Except.error Reject.group5) = _
  rw [if_pos (fieldN_formatRR _ _ _ _), fieldX_formatRR, fieldY_formatRR]

theorem ldVxNn (x : Reg) (nn : Byte) : Statement (.ldVxNn x nn) := by
  intro _
  refine (decode_formatRI 0x6#4 x nn).trans ?_
  show Except.ok (Instr.ldVxNn (fieldX _) (fieldNN _)) = _
  rw [fieldX_formatRI, fieldNN_formatRI]

theorem addVxNn (x : Reg) (nn : Byte) : Statement (.addVxNn x nn) := by
  intro _
  refine (decode_formatRI 0x7#4 x nn).trans ?_
  show Except.ok (Instr.addVxNn (fieldX _) (fieldNN _)) = _
  rw [fieldX_formatRI, fieldNN_formatRI]

theorem ldVxVy (x y : Reg) : Statement (.ldVxVy x y) := fun _ => decode_formatRR_group8 x y 0x0#4

theorem or (x y : Reg) : Statement (.or x y) := fun _ => decode_formatRR_group8 x y 0x1#4

theorem and (x y : Reg) : Statement (.and x y) := fun _ => decode_formatRR_group8 x y 0x2#4

theorem xor (x y : Reg) : Statement (.xor x y) := fun _ => decode_formatRR_group8 x y 0x3#4

theorem addVxVy (x y : Reg) : Statement (.addVxVy x y) := fun _ => decode_formatRR_group8 x y 0x4#4

theorem sub (x y : Reg) : Statement (.sub x y) := fun _ => decode_formatRR_group8 x y 0x5#4

theorem shr (x y : Reg) : Statement (.shr x y) := fun _ => decode_formatRR_group8 x y 0x6#4

theorem subn (x y : Reg) : Statement (.subn x y) := fun _ => decode_formatRR_group8 x y 0x7#4

theorem shl (x y : Reg) : Statement (.shl x y) := fun _ => decode_formatRR_group8 x y 0xE#4

theorem sneVxVy (x y : Reg) : Statement (.sneVxVy x y) := by
  intro _
  refine (decode_formatRR 0x9#4 x y 0x0#4).trans ?_
  show (if fieldN _ = 0#4 then Except.ok (Instr.sneVxVy (fieldX _) (fieldY _)) else Except.error Reject.group9) = _
  rw [if_pos (fieldN_formatRR _ _ _ _), fieldX_formatRR, fieldY_formatRR]

theorem ldINnn (nnn : Addr) : Statement (.ldINnn nnn) := fun _ =>
  (decode_formatA 0xA#4 nnn).trans (congrArg (fun a => Except.ok (Instr.ldINnn a)) (fieldNNN_formatA 0xA#4 nnn))

theorem jpV0Nnn (nnn : Addr) : Statement (.jpV0Nnn nnn) := fun _ =>
  (decode_formatA 0xB#4 nnn).trans (congrArg (fun a => Except.ok (Instr.jpV0Nnn a)) (fieldNNN_formatA 0xB#4 nnn))

theorem drw (x y : Reg) (n : Nat) : Statement (.drw x y n) := by
  intro h
  have h : n < 16 := of_decide_eq_true h
  have hn : (BitVec.ofNat 4 n).toNat = n := by rw [BitVec.toNat_ofNat]; omega
  refine (decode_formatRR 0xD#4 x y (BitVec.ofNat 4 n)).trans ?_
  show Except.ok (Instr.drw (fieldX _) (fieldY _) (fieldN _).toNat) = _
  rw [fieldX_formatRR, fieldY_formatRR, fieldN_formatRR, hn]

theorem ldVxDt (x : Reg) : Statement (.ldVxDt x) := fun _ => decode_formatRI_groupF x 0x07#8

theorem ldVxK (x : Reg) : Statement (.ldVxK x) := fun _ => decode_formatRI_groupF x 0x0A#8

end Sys2Proof.Laws.RoundTrip
end

