-- ==== Sys2Proof/Tests/Slice0.lean ====
section
/-! SUPPORT. Tests of one step each, their expected results taken from `95_test_vectors.md` (the part is named at each
group), and for every obligation with hypotheses a named state and operands that meet them. -/

namespace Sys2Proof.Tests

open Sys2Proof Sys2Proof.Machine

/-! ### Helpers -/

/-- The next state, where there is one. -/
def nextOf : Result → Option State
  | .next t => some t
  | _ => none

/-- The fault, where there is one. -/
def faultOf : Result → Option Fault
  | .fault f => some f
  | _ => none

/-- Reset with one instruction word at 0x0200. -/
def word (w : Nat) : State := State.reset.withFetchWord 16 w

/-- Reset with one instruction word at an address, and `pc` there. -/
def wordAt (pc : Word) (w : Nat) : State := (State.reset.setPc pc).withFetchWord 16 w

/-- Some general registers set. -/
def regs (s : State) (l : List (Reg × Byte)) : State := l.foldl (fun u p => u.writeV p.1 p.2) s

/-- Bytes placed in memory. -/
def bytes (s : State) (a : Nat) (bs : List Byte) : State := { s with mem := s.mem.pokes a bs }

/-- The keys whose numbers are listed, down. -/
def down (s : State) (ks : List Nat) : State := s.withKeys (Vector.ofFn fun k => ks.contains k.val)

/-- What one step leaves, seen through `f`. -/
def after {α : Type} (s : State) (f : State → α) : Option α := (nextOf (step s)).map f

/-- A state with `k` entries in use, entry `k - 1` holding an address. -/
def stacked (s : State) (k : Fin 17) (top : Word) : State :=
  { s with stack := s.stack.set (k.val - 1) top (by omega), sp := k }

/-! ### Well-formedness: each check refuses an ill-formed term, and passes the last well-formed one -/

theorem test_wf_refuses_drw_of_16_rows : (Instr.drw 0 0 16).wf = false ∧ (Instr.drw 0 0 15).wf = true := by decide
theorem test_wf_refuses_long_image :
    imageFits (List.replicate 3585 0) = false ∧ imageFits (List.replicate 3584 0) = true := by
  simp only [imageFits, List.length_replicate]; decide
theorem test_wf_refuses_memory : ¬ Memory.wf [(0x200, 0)] ∧ ¬ Memory.wf [(0x201, 1), (0x200, 1)] ∧
    ¬ Memory.wf [(4096, 1)] ∧ Memory.wf [(0, 1), (0x200, 1), (4095, 1)] := by decide
theorem test_wf_refuses_framebuffer : ¬ Framebuffer.wf [1, 1] ∧ ¬ Framebuffer.wf [2048] ∧
    Framebuffer.wf [0, 64, 2047] := by decide

/-! ### Decoding: a word of every row, its bits written out from R92 and R96 (format, then the fields) -/

theorem test_decode_cls : decode 0b0000000011100000#16 = .ok .cls := by rfl
theorem test_decode_ret : decode 0b0000000011101110#16 = .ok .ret := by rfl
theorem test_decode_jp : decode 0b0001001000000100#16 = .ok (.jp 0x204) := by rfl
theorem test_decode_call : decode 0b0010101010111100#16 = .ok (.call 0xABC) := by rfl
theorem test_decode_seVxNn : decode 0b0011111111111110#16 = .ok (.seVxNn 15 0xFE) := by rfl
theorem test_decode_sneVxNn : decode 0b0100001000010001#16 = .ok (.sneVxNn 2 0x11) := by rfl
theorem test_decode_seVxVy : decode 0b0101000100100000#16 = .ok (.seVxVy 1 2) := by rfl
theorem test_decode_ldVxNn : decode 0b0110001100101010#16 = .ok (.ldVxNn 3 0x2A) := by rfl
theorem test_decode_addVxNn : decode 0b0111000011111111#16 = .ok (.addVxNn 0 0xFF) := by rfl
theorem test_decode_ldVxVy : decode 0b1000000100100000#16 = .ok (.ldVxVy 1 2) := by rfl
theorem test_decode_or : decode 0b1000000100100001#16 = .ok (.or 1 2) := by rfl
theorem test_decode_and : decode 0b1000000100100010#16 = .ok (.and 1 2) := by rfl
theorem test_decode_xor : decode 0b1000000100100011#16 = .ok (.xor 1 2) := by rfl
theorem test_decode_addVxVy : decode 0b1000101010110100#16 = .ok (.addVxVy 10 11) := by rfl
theorem test_decode_sub : decode 0b1000000100100101#16 = .ok (.sub 1 2) := by rfl
theorem test_decode_shr : decode 0b1000000100100110#16 = .ok (.shr 1 2) := by rfl
theorem test_decode_subn : decode 0b1000000100100111#16 = .ok (.subn 1 2) := by rfl
theorem test_decode_shl : decode 0b1000000100101110#16 = .ok (.shl 1 2) := by rfl
theorem test_decode_sneVxVy : decode 0b1001000100100000#16 = .ok (.sneVxVy 1 2) := by rfl
theorem test_decode_ldINnn : decode 0b1010001000010000#16 = .ok (.ldINnn 0x210) := by rfl
theorem test_decode_jpV0Nnn : decode 0b1011001100000000#16 = .ok (.jpV0Nnn 0x300) := by rfl
theorem test_decode_drw : decode 0b1101000100100101#16 = .ok (.drw 1 2 5) := by rfl
theorem test_decode_ldVxDt : decode 0b1111000100000111#16 = .ok (.ldVxDt 1) := by rfl
theorem test_decode_ldVxK : decode 0b1111111100001010#16 = .ok (.ldVxK 15) := by rfl

/-- Part 2.1: unrecognised words, one or more of each class of R99. -/
theorem test_decode_rejects : [0x0000, 0x00E1, 0x01EE, 0x0EE0, 0x5001, 0x500F, 0x8008, 0x812D, 0x9001, 0xC000,
    0xCFFF, 0xE09E, 0xE0A1, 0xF015, 0xF018, 0xF01E, 0xF055, 0xF065, 0xF10B, 0xF117].all
      (fun w : Word => !(decode w).isOk) = true := by rfl

theorem test_decodeBytes_takes_two_bytes :
    decodeBytes [0x63, 0x2A, 0x99] = .ok (.ldVxNn 3 0x2A, [0x99]) ∧ decodeBytes [0x63] = .error .tooShort := by decide
theorem test_decodeTableWord : decodeTableWord 16 0x8AB4 = some (.addVxVy 10 11) ∧ decodeTableWord 16 0x5001 = none ∧
    decodeTableWord 8 0x100E0 = some .cls := by decide

/-! ### Fetch and faults of the cycle (parts 2.1 and 2.2) -/

theorem test_fetch_at_4094 :
    after (wordAt 0x0FFE 0x6177) (fun t => (t.readV 1, t.pc)) = some (0x77, 0x1000) := by decide
theorem test_fetch_odd_address :
    after (wordAt 0x0201 0x612A) (fun t => (t.readV 1, t.pc)) = some (0x2A, 0x0203) := by decide
theorem test_fetch_at_4095_faults : faultOf (step (State.reset.setPc 0x0FFF)) =
    some (.addressOutOfRange 0x0FFF 0 0x1000) := by decide
theorem test_fetch_beyond_memory_faults :
    faultOf (step (State.reset.setPc 0x10FE)) = some (.addressOutOfRange 0x10FE 0 0x10FE) ∧
    faultOf (step (State.reset.setPc 0xFFFF)) = some (.addressOutOfRange 0xFFFF 0 0xFFFF) := by decide
theorem test_reset_without_image_faults : faultOf (step State.reset) = some (.unrecognizedOpcode 0x0200 0) := by decide
theorem test_cyclePort_of_a_fault : cyclePort (word 0x8008) =
    (.error ⟨1, 0x0200, 0x8008, 0⟩, word 0x8008) := by decide
theorem test_withFetchWord_moves_an_unfetchable_pc :
    after (wordAt 0x0FFF 0x6177) (fun t => (t.readV 1, t.pc)) = some (0x77, 0x0202) := by decide

/-! ### Ports (R227 to R231) -/

theorem test_loader_port : (loadImage [0x61, 0x01] State.reset).map (fun t => (t.mem, t.pc)) =
    some ([(0x200, 0x61), (0x201, 0x01)], 0x0200) := by decide
theorem test_read_ports :
    framebufferPort { State.reset with fb := [5] } 5 = 1 ∧ framebufferPort { State.reset with fb := [5] } 6 = 0 ∧
    timerPort { State.reset with dt := 9, st := 1 } = (9, 1) := by decide

/-! ### Control transfer (part 2.3) -/

theorem test_ret : after (stacked (word 0x00EE) 16 0x031E) (fun t => (t.pc, t.sp)) = some (0x0320, 15) := by decide
theorem test_ret_wraps_and_underflows :
    after (stacked (word 0x00EE) 1 0xFFFF) (fun t => (t.pc, t.sp)) = some (0x0001, 0) ∧
    faultOf (step (word 0x00EE)) = some (.stackUnderflow 0x0200 0x00EE) := by decide
theorem test_jp : after (wordAt 0x020A 0x1204) (fun t => t.pc) = some 0x0204 := by decide
theorem test_call : after (stacked (wordAt 0x0300 0x2ABC) 15 7) (fun t => (t.pc, t.sp, t.readStack 15, t.readStack 14)) =
    some (0x0ABC, 16, 0x0300, 7) := by decide
theorem test_call_overflows :
    faultOf (step (stacked (wordAt 0x0300 0x2ABC) 16 7)) = some (.stackOverflow 0x0300 0x2ABC) := by decide
theorem test_jpV0Nnn : after (regs (word 0xBFFF) [(0, 0xFF)]) (fun t => t.pc) = some 0x10FE := by decide
/-- The `literal` form of `93_implementation_defined.md` G4: 0x1000 + (0x06 AND 0x01). -/
theorem test_jumpTarget_literal : jumpTarget .literal 0x206 2 = 0x1000 ∧ jumpTarget .literal 0x207 2 = 0x1001 ∧
    jumpTarget .literal 0x206 0 = 0x0206 := by decide

/-! ### Skips (part 2.4) -/

theorem test_seVxNn : after (wordAt 0x0208 0x3000) (fun t => t.pc) = some 0x020C ∧
    after (regs (wordAt 0x0208 0x3000) [(0, 1)]) (fun t => t.pc) = some 0x020A := by decide
theorem test_seVxNn_at_the_top : after (wordAt 0x0FFE 0x3000) (fun t => t.pc) = some 0x1002 := by decide
theorem test_sneVxNn : after (regs (wordAt 0x0300 0x4211) [(2, 0x10)]) (fun t => t.pc) = some 0x0304 ∧
    after (regs (wordAt 0x0300 0x4210) [(2, 0x10)]) (fun t => t.pc) = some 0x0302 := by decide
theorem test_seVxVy : after (regs (word 0x5120) [(1, 0x7F), (2, 0x7F)]) (fun t => t.pc) = some 0x0204 ∧
    after (regs (word 0x5120) [(1, 0x7F), (2, 0x7E)]) (fun t => t.pc) = some 0x0202 := by decide
theorem test_sneVxVy : after (regs (word 0x9120) [(1, 1), (2, 2)]) (fun t => t.pc) = some 0x0204 ∧
    after (regs (word 0x9330) [(3, 9)]) (fun t => t.pc) = some 0x0202 := by decide

/-! ### Immediate load and add (part 2.5) -/

theorem test_ldVxNn : after (word 0x632A) (fun t => (t.readV 3, t.pc)) = some (0x2A, 0x0202) := by decide
theorem test_addVxNn : after (regs (word 0x7101) [(1, 0xFF), (15, 0x33)]) (fun t => (t.readV 1, t.readV 15)) =
    some (0x00, 0x33) ∧ after (regs (word 0x7F01) [(15, 0xFF)]) (fun t => t.readV 15) = some 0 := by decide
theorem test_ldINnn : after (wordAt 0x020A 0xAFFF) (fun t => (t.idx, t.pc)) = some (0x0FFF, 0x020C) := by decide

/-! ### Arithmetic and logic (parts 2.6 and 2.7) -/

theorem test_ldVxVy : after (regs (word 0x8120) [(1, 0x11), (2, 0x7E), (15, 0x55)])
    (fun t => (t.readV 1, t.readV 2, t.readV 15)) = some (0x7E, 0x7E, 0x55) := by decide
theorem test_or : after (regs (word 0x8121) [(1, 0xF0), (2, 0x0F), (15, 0x55)])
    (fun t => (t.readV 1, t.readV 15)) = some (0xFF, 0x55) := by decide
theorem test_and : after (regs (word 0x8122) [(1, 0xF0), (2, 0x3C), (15, 0x55)])
    (fun t => (t.readV 1, t.readV 15)) = some (0x30, 0x55) := by decide
theorem test_xor : after (regs (word 0x8123) [(1, 0xF0), (2, 0x3C), (15, 0x55)])
    (fun t => (t.readV 1, t.readV 15)) = some (0xCC, 0x55) := by decide
theorem test_addVxVy :
    after (regs (word 0x8124) [(1, 0xF0), (2, 0x20)]) (fun t => (t.readV 1, t.readV 15)) = some (0x10, 1) ∧
    after (regs (word 0x8124) [(1, 0x80), (2, 0x7F), (15, 1)]) (fun t => (t.readV 1, t.readV 15)) = some (0xFF, 0) := by
  decide
theorem test_addVxVy_aliased : after (regs (word 0x8F24) [(15, 0xF0), (2, 0x20)]) (fun t => t.readV 15) = some 1 ∧
    after (regs (word 0x81F4) [(1, 0x10), (15, 0x20)]) (fun t => (t.readV 1, t.readV 15)) = some (0x30, 0) ∧
    after (regs (word 0x8FF4) [(15, 0x90)]) (fun t => t.readV 15) = some 1 := by decide
theorem test_sub :
    after (regs (word 0x8125) [(1, 0x10), (2, 0x30), (15, 1)]) (fun t => (t.readV 1, t.readV 15)) = some (0xE0, 0) ∧
    after (regs (word 0x8125) [(1, 0x42), (2, 0x42)]) (fun t => (t.readV 1, t.readV 15)) = some (0, 1) := by decide
theorem test_sub_aliased : after (regs (word 0x8F25) [(15, 0x10), (2, 0x30)]) (fun t => t.readV 15) = some 0 ∧
    after (regs (word 0x81F5) [(1, 0x30), (15, 0x10)]) (fun t => (t.readV 1, t.readV 15)) = some (0x20, 1) ∧
    after (regs (word 0x8FF5) [(15, 0x30)]) (fun t => t.readV 15) = some 1 := by decide
theorem test_shr : after (regs (word 0x8126) [(1, 0xAA), (2, 0xFF)]) (fun t => (t.readV 1, t.readV 2, t.readV 15)) =
    some (0x7F, 0x7F, 1) := by decide
theorem test_shr_aliased :
    after (regs (word 0x8F26) [(15, 0x99), (2, 0x05)]) (fun t => (t.readV 2, t.readV 15)) = some (2, 2) ∧
    after (regs (word 0x81F6) [(1, 0xAA), (15, 0x05)]) (fun t => (t.readV 1, t.readV 15)) = some (0, 0) ∧
    after (regs (word 0x8FF6) [(15, 3)]) (fun t => t.readV 15) = some 0 := by decide
theorem test_subn :
    after (regs (word 0x8127) [(1, 0x10), (2, 0x30)]) (fun t => (t.readV 1, t.readV 15)) = some (0x20, 1) ∧
    after (regs (word 0x8127) [(1, 0x42), (2, 0x42), (15, 1)]) (fun t => (t.readV 1, t.readV 15)) = some (0, 0) := by
  decide
theorem test_subn_aliased : after (regs (word 0x8F27) [(15, 0x10), (2, 0x30)]) (fun t => t.readV 15) = some 0x2F ∧
    after (regs (word 0x81F7) [(1, 0x10), (15, 0x30)]) (fun t => (t.readV 1, t.readV 15)) = some (0xF1, 1) ∧
    after (regs (word 0x8FF7) [(15, 0x30)]) (fun t => t.readV 15) = some 0 := by decide
theorem test_shl : after (regs (word 0x812E) [(1, 0xAA), (2, 0x81)]) (fun t => (t.readV 1, t.readV 2, t.readV 15)) =
    some (2, 2, 0x80) := by decide
theorem test_shl_aliased :
    after (regs (word 0x8F2E) [(15, 0x99), (2, 0x81)]) (fun t => (t.readV 2, t.readV 15)) = some (2, 2) ∧
    after (regs (word 0x81FE) [(1, 0xAA), (15, 0x81)]) (fun t => (t.readV 1, t.readV 15)) = some (0, 0) ∧
    after (regs (word 0x8FFE) [(15, 0xC1)]) (fun t => t.readV 15) = some 0 := by decide

/-! ### Display (part 2.8) -/

theorem test_cls : after { word 0x00E0 with fb := [0, 2047] } (fun t => (t.fb, t.pc)) = some ([], 0x0202) := by decide

/-- DXYN at the bottom right corner, wrapped on both axes. -/
theorem test_drw_wraps :
    after (regs { bytes (word 0xD122) 0x300 [0xFF, 0x81] with idx := 0x300 } [(1, 62), (2, 31)])
      (fun t => (t.fb, t.readV 15)) =
    some ([5, 62, 1984, 1985, 1986, 1987, 1988, 1989, 2046, 2047], 0) := by decide

/-- DXYN overwrites: a 0 bit clears, and the collision is with the pixels that were on. -/
theorem test_drw_overwrites :
    after { bytes (word 0xD121) 0x300 [0x0F] with idx := 0x300, fb := [0, 1, 2, 3, 4, 5, 6, 7] }
      (fun t => (t.fb, t.readV 15)) = some ([4, 5, 6, 7], 1) := by decide

/-! ### Timer read, key wait, timer update (part 2.9) -/

theorem test_ldVxDt : after { wordAt 0x020E 0xF107 with dt := 5, st := 3 } (fun t => (t.readV 1, t.pc, t.dt, t.st)) =
    some (5, 0x0210, 4, 2) := by decide
theorem test_ldVxK_waits : after { word 0xF00A with dt := 9, st := 1 } (fun t => (t.pc, t.wait, t.dt, t.st)) =
    some (0x0200, .awaitingKey 0, 9, 1) := by decide
theorem test_ldVxK_resolves :
    after (down { word 0xF00A with dt := 9, st := 1 } [1, 7]) (fun t => (t.readV 0, t.pc, t.wait, t.dt, t.st)) =
    some (1, 0x0202, .running, 8, 0) := by decide
theorem test_wait_is_left_by_another_instruction :
    after { word 0x6105 with wait := .awaitingKey 4, dt := 2 } (fun t => (t.readV 1, t.wait, t.dt)) =
    some (5, .running, 1) := by decide

/-! ### Witnesses: for every obligation with hypotheses, operands and states that meet them -/

theorem witness_DecodeOfEncode : (Instr.drw 15 15 15).wf = true ∧ (Instr.drw 0 0 0).wf = true := by decide
theorem witness_EncodeOfDecode : decode 0xDFFF = .ok (.drw 15 15 15) := by rfl
theorem witness_RejectsExactly : decode 0x0000 = .error .group0 ∧ decode 0xF117 = .error .groupF := by decide
theorem witness_DecoderAgrees : decode 0xF107 = .ok (.ldVxDt 1) ∧ decode 0xE09E = .error .groupE := by decide
theorem witness_ResetValues_glyph : 79 < glyphs.length ∧ 80 ≤ 4095 := by decide
theorem witness_MemRead : 4095 ≤ 4095 ∧ 4094 + 1 ≤ 4095 ∧ 4095 < 4096 ∧ 4095 < 4095 + 1 ∧
    memRead1 [] 4095 = .ok 0 ∧ memRead1 [] 4096 = .error 4096 ∧ memRead2 [] 4094 = .ok 0 ∧
    memRead2 [] 4095 = .error 4096 := by decide
theorem witness_Fetch : (wordAt 0x0FFE 0x6177).pc.toNat ≤ 4094 ∧ 4094 < (State.reset.setPc 0x0FFF).pc.toNat ∧
    4094 < (State.reset.setPc 0x1000).pc.toNat := by decide
theorem witness_CanonicalForms : Memory.wf [(0x200, 1)] ∧ Framebuffer.wf [5] ∧
    (∀ a, a ≤ 4095 → Memory.peek [(0x200, 1)] a = Memory.peek [(0x200, 1)] a) ∧
    (∀ k, k < 2048 → Framebuffer.on [5] k = Framebuffer.on [5] k) := by
  exact ⟨by decide, by decide, fun _ _ => rfl, fun _ _ => rfl⟩
theorem witness_Loader : (List.replicate 3584 (0 : Byte)).length ≤ 3584 ∧
    3584 < (List.replicate 3585 (0 : Byte)).length ∧ State.reset.wf := by
  exact ⟨by rw [List.length_replicate], by rw [List.length_replicate]; decide, by decide⟩
theorem witness_StepRuns : (wordAt 0x0FFE 0x6177).pc.toNat ≤ 4094 ∧
    decode (nextWord (wordAt 0x0FFE 0x6177)) = .ok (.ldVxNn 1 0x77) := by decide
theorem witness_TimersTick :
    after { word 0x1200 with dt := 1 } (fun t => (t.wait, t.dt, t.st)) = some (.running, 0, 0) ∧
    after { word 0xF00A with dt := 1 } (fun t => t.wait) = some (.awaitingKey 0) := by decide
theorem witness_UnrecognisedWord : (wordAt 0x0FFE 0x5001).pc.toNat ≤ 4094 ∧
    ∀ r ∈ opcodeTable, r.matchesWord (nextWord (wordAt 0x0FFE 0x5001)) = false := by decide
theorem witness_OnlyCallReturnAndDraw_at_the_edge :
    faultOf (exec (.drw 1 2 15) { State.reset with idx := 0x0FF2 }) =
      some (.addressOutOfRange 0x0200 0xD12F 0x1000) ∧
    faultOf (exec (.drw 1 2 1) { State.reset with idx := 0x1234 }) =
      some (.addressOutOfRange 0x0200 0xD121 0x1234) ∧
    (faultOf (exec (.drw 1 2 15) { State.reset with idx := 0x0FF1 })).isNone ∧
    (faultOf (exec (.drw 1 2 0) { State.reset with idx := 0x1234 })).isNone := by decide
theorem witness_Faults_of_each_code :
    (faultOf (step (word 0x5001))).map Fault.code = some 1 ∧
    (faultOf (step (stacked (word 0x2200) 16 0x200))).map Fault.code = some 2 ∧
    (faultOf (step (word 0x00EE))).map Fault.code = some 3 ∧
    (faultOf (step { word 0xD123 with idx := 0x0FFE })).map Fault.code = some 4 ∧
    (faultOf (step (down (word 0x00EE) [3]))).map Fault.code = some 3 := by decide
theorem witness_Call : State.reset.sp.val < 16 ∧ (stacked State.reset 15 7).sp.val < 16 ∧
    (stacked State.reset 16 7).sp.val = 16 := by decide
theorem witness_Return : (stacked State.reset 1 7).sp.val = (0 : Fin 16).val + 1 ∧
    (stacked State.reset 16 7).sp.val = (15 : Fin 16).val + 1 ∧ State.reset.sp.val = 0 := by decide
theorem witness_OffsetJumpForms : (1 : Byte) ≠ 0 ∧ (0xFF : Byte) ≠ 0 ∧
    (jumpTarget .literal 0x2FF 0xFF).toNat = 0x10FE := by decide
theorem witness_Alu_operands : (1 : Reg) ≠ vf ∧ (14 : Reg) ≠ vf ∧ (15 : Reg) = vf := by decide
theorem witness_DrawPastMemory : (15 : Nat) ≤ 15 ∧ 0 < 15 ∧
    4095 < { State.reset with idx := 0x0FF2 }.idx.toNat + 15 - 1 ∧
    4095 < { State.reset with idx := 0x1000 }.idx.toNat + 1 - 1 := by decide
theorem witness_Draw : { State.reset with idx := 0x0FF1 }.idx.toNat + 15 - 1 ≤ 4095 ∧
    { State.reset with idx := 0x0FFF }.idx.toNat + 1 - 1 ≤ 4095 ∧ (0 : Nat) ≤ 15 := by decide
theorem witness_Draw_collides : spriteAt { State.reset with fb := [3] } 0 3 = true ∧
    wrapEntry { State.reset with fb := [3] } 1 2 0 3 = 3 ∧
    spriteAt State.reset 1 1 = false := by decide
theorem witness_EdgePolicy :
    drawOrigin (regs State.reset [(1, 56), (2, 17)]) 1 ≤ 56 ∧
    drawOrigin (regs State.reset [(1, 56), (2, 17)]) 2 + 15 ≤ 32 ∧ drawOrigin State.reset 15 ≤ 56 := by decide
theorem witness_Clip :
    (drawSprite .clip 1 2 2 (regs { bytes State.reset 0x300 [0xFF, 0x81] with idx := 0x300 }
      [(1, 62), (2, 31)])).fb = [2046, 2047] := by decide
theorem witness_DelayTimer : fetch (wordAt 0x0FFE 0xF107) = .ok (wordRI 0xF 1 0x07) := by decide
theorem witness_NoKeyDown : NoKeyDown State.reset := by
  unfold NoKeyDown; decide
theorem witness_LowestKeyDown : LowestKeyDown (down State.reset [1, 7]) 1 ∧ LowestKeyDown (down State.reset [0]) 0 ∧
    LowestKeyDown (down State.reset [15]) 15 := by
  unfold LowestKeyDown; decide
theorem witness_KeyWaitPolls : fetch (word 0xF30A) = .ok (wordRI 0xF 3 0x0A) ∧ NoKeyDown (word 0xF30A) ∧
    LowestKeyDown ((word 0xF30A).withKeys (Vector.replicate 16 true)) 0 := by
  unfold NoKeyDown LowestKeyDown; decide
theorem witness_WaitIsSet :
    decode (nextWord (word 0xF30A)) = .ok (.ldVxK 3) ∧ decode (nextWord (word 0x6105)) = .ok (.ldVxNn 1 5) ∧
    after (word 0xF30A) (fun t => t.wait) = some (.awaitingKey 3) ∧
    after (down (word 0xF30A) [2]) (fun t => t.wait) = some .running ∧
    after (word 0x6105) (fun t => t.wait) = some .running := by decide
theorem witness_OnlyNamedRegisters :
    (nextOf (exec (.shr 1 2) (regs State.reset [(2, 5)]))).map (fun t => (t.readV 1, t.readV 2, t.readV 15, t.readV 3)) =
    some (2, 2, 1, 0) := by decide
theorem witness_SpecialState :
    (nextOf (exec (.call 0x300) State.reset)).map (fun t => (t.idx, t.fb, t.sp)) = some (0, [], 1) := by decide
theorem witness_StepWritesNeither : (nextOf (step (down (word 0x6105) [3]))).isSome ∧
    (nextOf (step (word 0x6105))).isSome := by decide
theorem witness_OnlyTheKeyWait : (nextOf (exec (.ldVxNn 1 5) State.reset)).isSome ∧
    (faultOf (exec .ret State.reset)).isSome := by decide
theorem witness_SoundTimer : (nextOf (step (word 0x6105))).isSome ∧ (faultOf (step (word 0x00EE))).isSome ∧
    after ((word 0x6105).withSound 9) (fun t => t.st) = some 8 := by decide
theorem witness_DeadStack : AgreeOnLive (stacked (word 0x00EE) 1 0x204)
    { stacked (word 0x00EE) 1 0x204 with stack := (stacked (word 0x00EE) 1 0x204).stack.set 1 0xBEEF } := by
  unfold AgreeOnLive; decide
theorem witness_Ended : Ended { word 0x1200 with dt := 3 } :=
  ⟨rfl, 0x200, by decide, by decide⟩
theorem witness_CanonicalForm : (word 0x6105).wf ∧ (nextOf (step (word 0x6105))).isSome := by decide
theorem witness_AddressBounds : AddressBounds { stacked (wordAt 0x0FFE 0xBFFF) 1 4094 with idx := 0x0FFF } ∧
    after (regs { stacked (wordAt 0x0FFE 0xBFFF) 1 4094 with idx := 0x0FFF } [(0, 0xFF)]) (fun t => t.pc) =
    some 0x10FE := by decide

theorem witness_StoppedTimers : after { word 0x6105 with dt := 1 } (fun t => (t.dt, t.st)) = some (0, 0) ∧
    after (word 0x6105) (fun t => (t.dt, t.st)) = some (0, 0) := by decide

/-- A program of one self-jump, loaded, a key pressed, one cycle run. -/
theorem witness_Reachable : ∃ s, Reachable s ∧ s.pc = 0x0200 ∧ s.keys[3] = true := by
  have h := Reachable.loaded (image := [0x12, 0x00]) (s := word 0x1200) (by decide)
  have hk : Reachable (down (word 0x1200) [3]) := h.keys _
  have hs : step (down (word 0x1200) [3]) = .next (down (word 0x1200) [3]) := by rfl
  exact ⟨_, hk.cycle hs, rfl, by decide⟩

end Sys2Proof.Tests
end

/-! # Proofs about the state (`10_state.md`)

The inversion of a dispatch (`Completes`, `exec_completes`) says once what a completed dispatch can leave; the rules
about who writes what and the invariants are its case analyses. The two noninterference statements run two states in
lockstep (`step_lockstep`) and use that no dispatch but 2NNN and 00EE looks at the stack entries, and none at the sound
timer (`exec_mapUnseen`, `exec_withSound`). -/

namespace Sys2Proof.Machine

/-! ### States that differ in general registers only -/

/-- `u` is `s` but for general registers in the list. -/
def WritesOnly (ws : List Reg) (s u : State) : Prop := u = { s with v := u.v } ∧ KeepsV ws s u

theorem WritesOnly.refl (ws : List Reg) (s : State) : WritesOnly ws s s := ⟨rfl, fun _ _ => rfl⟩

theorem WritesOnly.writeV {ws : List Reg} {s u : State} (h : WritesOnly ws s u) {x : Reg} (hx : x ∈ ws) (b : Byte) :
    WritesOnly ws s (u.writeV x b) := by
  obtain ⟨hu, hk⟩ := h
  refine ⟨by rw [hu]; rfl, fun r hr => ?_⟩
  have hrx : r ≠ x := fun e => hr (e ▸ hx)
  rw [readV_writeV_ne u b hrx, hk r hr]

theorem WritesOnly.idx_eq {ws : List Reg} {s u : State} (h : WritesOnly ws s u) : u.idx = s.idx := by
  rw [h.1]

theorem WritesOnly.fb_eq {ws : List Reg} {s u : State} (h : WritesOnly ws s u) : u.fb = s.fb := by
  rw [h.1]

theorem WritesOnly.keepsStack {ws : List Reg} {s u : State} (h : WritesOnly ws s u) : KeepsStack s u := by
  rw [h.1]
  exact ⟨rfl, fun _ => rfl⟩

/-! ### What a completed dispatch can leave -/

/-- Where a dispatch that uses no stack entry leaves `pc`, when it writes it: the next instruction, the one after, or
the target of a jump. -/
def NextPc (s : State) (p : Word) : Prop :=
  p = s.pc + 2 ∨ p = s.pc + 4 ∨ ∃ nnn b, p = jumpTarget .sum nnn b

/-- The states a completed dispatch of an instruction can leave, by what it writes beside `pc` and `wait`. -/
inductive Completes (s : State) : Instr → State → Prop where
  /-- General registers only. -/
  | registers {i : Instr} {u : State} {p : Word} (hu : WritesOnly (mayWriteV i) s u) (hp : NextPc s p) :
    Completes s i ((u.setPc p).setWait .running)
  /-- ANNN: the index register. -/
  | index (nnn : Addr) : Completes s (.ldINnn nnn) (((s.setIdx (zextAddr nnn)).setPc (s.pc + 2)).setWait .running)
  /-- 00E0: the framebuffer. -/
  | clear : Completes s .cls (((s.setFb []).setPc (s.pc + 2)).setWait .running)
  /-- DXYN: the framebuffer and VF. -/
  | draw (x y : Reg) (n : Nat) :
    Completes s (.drw x y n) (((drawSprite drawEdge x y n s).setPc (s.pc + 2)).setWait .running)
  /-- 2NNN: the entry at `sp`, and `sp`. -/
  | call (nnn : Addr) (h : s.sp.val < 16) :
    Completes s (.call nnn)
      (((s.setStack (s.stack.set s.sp.val s.pc) ⟨s.sp.val + 1, by omega⟩).setPc (zextAddr nnn)).setWait .running)
  /-- 00EE: `sp`. -/
  | ret (h : 0 < s.sp.val) :
    Completes s .ret
      (((s.setStack s.stack ⟨s.sp.val - 1, by omega⟩).setPc
        (s.readStack ⟨s.sp.val - 1, by omega⟩ + 2)).setWait .running)
  /-- FX0A with no key down: `wait` only. -/
  | waiting (x : Reg) : Completes s (.ldVxK x) (s.setWait (.awaitingKey x))

/-- A dispatch that ends in `finish` after writing general registers only. -/
theorem completes_of_finish {i : Instr} {s u t : State} {p : Word} (h : finish p u = .next t)
    (hu : WritesOnly (mayWriteV i) s u) (hp : NextPc s p) : Completes s i t := by
  obtain rfl := (finish_eq_next p u t).1 h
  exact .registers hu hp

/-- One destination written, on to the next instruction. -/
theorem completes_of_finish_writeV {i : Instr} {s t : State} {x : Reg} {b : Byte}
    (h : finish (s.pc + 2) (s.writeV x b) = .next t) (hx : x ∈ mayWriteV i) : Completes s i t :=
  completes_of_finish h ((WritesOnly.refl _ s).writeV hx b) (.inl rfl)

theorem completes_of_skipWhen {i : Instr} {s t : State} {c : Bool} (h : skipWhen c s = .next t) :
    Completes s i t := by
  refine completes_of_finish h (.refl _ s) ?_
  cases c
  · exact .inl rfl
  · exact .inr (.inl rfl)

/-- Inversion of a dispatch (R123): what it leaves when it completes. -/
theorem exec_completes {i : Instr} {s t : State} (h : exec i s = .next t) : Completes s i t := by
  cases i with
  | cls => obtain rfl := (finish_eq_next _ _ _).1 h; exact .clear
  | ret =>
    by_cases hs : 0 < s.sp.val
    · rw [exec_ret_of_pos s hs] at h; cases h; exact .ret hs
    · rw [exec_ret_of_zero s (by omega)] at h; cases h
  | jp nnn => exact completes_of_finish h (.refl _ s) (.inr (.inr ⟨nnn, 0, by simp [jumpTarget, zextByte]⟩))
  | call nnn =>
    by_cases hs : s.sp.val < 16
    · rw [exec_call_of_lt nnn s hs] at h; cases h; exact .call nnn hs
    · rw [exec_call_of_full nnn s (by omega)] at h; cases h
  | seVxNn | sneVxNn | seVxVy | sneVxVy => exact completes_of_skipWhen h
  | ldVxNn | addVxNn | ldVxVy | or | and | xor | ldVxDt => exact completes_of_finish_writeV h (by simp [mayWriteV])
  | addVxVy | sub | subn =>
    exact completes_of_finish h
      (((WritesOnly.refl _ s).writeV (by simp [mayWriteV]) _).writeV (by simp [mayWriteV]) _) (.inl rfl)
  | shr | shl =>
    exact completes_of_finish h
      ((((WritesOnly.refl _ s).writeV (by simp [mayWriteV]) _).writeV (by simp [mayWriteV]) _).writeV
        (by simp [mayWriteV]) _) (.inl rfl)
  | ldINnn nnn => obtain rfl := (finish_eq_next _ _ _).1 h; exact .index nnn
  | jpV0Nnn nnn => exact completes_of_finish h (.refl _ s) (.inr (.inr ⟨nnn, _, rfl⟩))
  | drw x y n =>
    by_cases hn : n = 0 ∨ s.idx.toNat + n ≤ 4096
    · rw [exec_drw_of_inside x y n s hn] at h; cases h; exact .draw x y n
    · rw [exec_drw_of_outside x y n s (by omega) (by omega)] at h; cases h
  | ldVxK x =>
    cases hk : lowestKey s.keys with
    | none => rw [exec_ldVxK_of_none x s hk] at h; cases h; exact .waiting x
    | some k =>
      rw [exec_ldVxK_of_some x s k hk] at h
      exact completes_of_finish_writeV h (by simp [mayWriteV])

/-! ### What a completed dispatch keeps -/

theorem Completes.keepsV {i : Instr} {s t : State} (h : Completes s i t) : KeepsV (mayWriteV i) s t := by
  cases h with
  | registers hu _ => exact hu.2
  | draw x y n =>
    intro r hr
    have hr : r ≠ vf := by simpa [mayWriteV] using hr
    simp [drawSprite_eq, hr]
  | index | clear | call | ret | waiting => exact fun _ _ => rfl

theorem Completes.idx_eq {i : Instr} {s t : State} (h : Completes s i t) (hi : ∀ nnn, i ≠ .ldINnn nnn) :
    t.idx = s.idx := by
  cases h with
  | registers hu _ => exact hu.idx_eq
  | index nnn => exact absurd rfl (hi nnn)
  | clear | draw | call | ret | waiting => rfl

theorem Completes.fb_eq {i : Instr} {s t : State} (h : Completes s i t) (hc : i ≠ .cls)
    (hd : ∀ x y n, i ≠ .drw x y n) : t.fb = s.fb := by
  cases h with
  | registers hu _ => exact hu.fb_eq
  | clear => exact absurd rfl hc
  | draw x y n => exact absurd rfl (hd x y n)
  | index | call | ret | waiting => rfl

theorem Completes.keepsStack {i : Instr} {s t : State} (h : Completes s i t) (hr : i ≠ .ret)
    (hc : ∀ nnn, i ≠ .call nnn) : KeepsStack s t := by
  cases h with
  | registers hu _ => exact hu.keepsStack
  | call nnn => exact absurd rfl (hc nnn)
  | ret => exact absurd rfl hr
  | index | clear | draw | waiting => exact ⟨rfl, fun _ => rfl⟩

theorem Completes.fb_wf {i : Instr} {s t : State} (h : Completes s i t) (hs : s.fb.wf) : t.fb.wf := by
  cases h with
  | registers hu _ => rw [setWait_fb, setPc_fb, hu.fb_eq]; exact hs
  | clear => exact ⟨.nil, by simp⟩
  | draw x y n => exact drawSprite_fb_wf drawEdge x y n hs
  | index | call | ret | waiting => exact hs

/-- Settles O49: from the inversion, only the draw and the register writes touch a general register. -/
theorem onlyNamedRegistersAreWritten : Obligations.OnlyNamedRegistersAreWritten :=
  fun _ _ _ h => (exec_completes h).keepsV

/-- Settles O50: the index register, the framebuffer and the stack by the inversion; no dispatch writes the rest. -/
theorem specialStateHasItsOwnWriters : Obligations.SpecialStateHasItsOwnWriters := by
  intro i s t h
  obtain ⟨hmem, hdt, hst, hkeys⟩ := exec_keeps h
  have hc := exec_completes h
  refine ⟨hc.idx_eq, fun ⟨hcls, hdrw⟩ k => ?_, fun ⟨hret, hcall⟩ => hc.keepsStack hret hcall, fun a => ?_,
    hdt, hst, hkeys⟩
  · rw [hc.fb_eq hcls hdrw]
  · rw [hmem]

/-! ### The invariants -/

/-- A completed step is a fetch inside memory, a completed dispatch and the timer update (R120). -/
theorem step_completes {s t : State} (h : step s = .next t) :
    ∃ i u, s.pc.toNat ≤ 4094 ∧ exec i s = .next u ∧ Completes s i u ∧ t = timerUpdate u := by
  obtain ⟨w, i, u, hf, _, hu, rfl⟩ := step_eq_next h
  exact ⟨i, u, fetch_eq_ok hf, hu, exec_completes hu, rfl⟩

/-- Settles O56: memory is not written, and pixel writes stay on the grid. -/
theorem stepKeepsCanonicalForm : Obligations.StepKeepsCanonicalForm := by
  rintro s t ⟨hmem, hfb⟩ h
  obtain ⟨i, u, -, hu, hc, rfl⟩ := step_completes h
  obtain ⟨hm, -⟩ := exec_keeps hu
  rw [State.wf, timerUpdate_mem, timerUpdate_fb, hm]
  exact ⟨hmem, hc.fb_wf hfb⟩

theorem jumpTarget_sum_toNat (nnn : Addr) (b : Byte) : (jumpTarget .sum nnn b).toNat = nnn.toNat + b.toNat := by
  have := nnn.isLt
  have := b.isLt
  rw [jumpTarget, BitVec.toNat_add, zextAddr_toNat, zextByte_toNat]; omega

/-- R27: 0x10FE is the largest offset jump, `0x0FFF + 0xFF`; where a fetch succeeded the next two instructions lie
below it. -/
theorem NextPc.le {s : State} {p : Word} (h : NextPc s p) (hpc : s.pc.toNat ≤ 4094) : p.toNat ≤ 0x10FE := by
  rcases h with rfl | rfl | ⟨nnn, b, rfl⟩
  · bv_omega
  · bv_omega
  · have := nnn.isLt
    have := b.isLt
    rw [jumpTarget_sum_toNat]; omega

/-- Every live stack entry is an address a fetch can succeed at (R32). -/
def LiveEntriesBounded (s : State) : Prop := ∀ k : Fin 16, k.val < s.sp.val → (s.readStack k).toNat ≤ 4094

theorem Completes.pc_le {i : Instr} {s t : State} (h : Completes s i t) (hpc : s.pc.toNat ≤ 4094)
    (hst : LiveEntriesBounded s) : t.pc.toNat ≤ 0x10FE := by
  have hnext : (s.pc + 2).toNat ≤ 0x10FE := NextPc.le (.inl rfl) hpc
  cases h with
  | registers _ hp => exact hp.le hpc
  | index | clear | draw => exact hnext
  | call nnn =>
    rw [setWait_pc, setPc_pc, zextAddr_toNat]
    have := nnn.isLt
    omega
  | ret hs =>
    have hlive := hst ⟨s.sp.val - 1, by omega⟩ (show s.sp.val - 1 < s.sp.val by omega)
    rw [setWait_pc, setPc_pc]
    bv_omega
  | waiting => rw [setWait_pc]; omega

theorem Completes.idx_le {i : Instr} {s t : State} (h : Completes s i t) (hs : s.idx.toNat ≤ 0x0FFF) :
    t.idx.toNat ≤ 0x0FFF := by
  cases h with
  | registers hu _ => rw [setWait_idx, setPc_idx, hu.idx_eq]; exact hs
  | index nnn =>
    rw [setWait_idx, setPc_idx, setIdx_idx, zextAddr_toNat]
    have := nnn.isLt
    omega
  | clear | draw | call | ret | waiting => exact hs

theorem Completes.liveEntriesBounded {i : Instr} {s t : State} (h : Completes s i t) (hpc : s.pc.toNat ≤ 4094)
    (hst : LiveEntriesBounded s) : LiveEntriesBounded t := by
  cases h with
  | registers hu _ =>
    obtain ⟨hsp, hentry⟩ := hu.keepsStack
    intro k hk
    rw [readStack_setWait, readStack_setPc, hentry]
    exact hst k (hsp ▸ hk)
  | call nnn hs =>
    intro k hk
    have hk : k.val < s.sp.val + 1 := hk
    rw [readStack_setWait, readStack_setPc, readStack_setStack, readStack_set _ _ hs]
    split
    · exact hpc
    · exact hst k (by omega)
  | ret hs =>
    intro k hk
    have hk : k.val < s.sp.val - 1 := hk
    exact hst k (by omega)
  | index | clear | draw | waiting => exact hst

/-- Settles O57: the four bounds, each by the inversion; a completed step fetched, so `pc` was at most 4094. -/
theorem stepKeepsAddressBounds : Obligations.StepKeepsAddressBounds := by
  rintro s t ⟨hwf, hidx, -, hlive⟩ h
  obtain ⟨i, u, hpc, -, hc, rfl⟩ := step_completes h
  refine ⟨stepKeepsCanonicalForm s _ hwf h, ?_, ?_, fun k hk => ?_⟩
  · rw [timerUpdate_idx]; exact hc.idx_le hidx
  · rw [timerUpdate_pc]; exact hc.pc_le hpc hlive
  · rw [readStack_timerUpdate]; exact hc.liveEntriesBounded hpc hlive k (timerUpdate_sp u ▸ hk)

@[simp] theorem tick_zero : tick 0#8 = 0#8 := rfl

/-- Settles O59: a dispatch loads no timer, and a timer at 0 ticks to 0. -/
theorem stoppedTimersStayStopped : Obligations.StoppedTimersStayStopped := by
  intro s t h
  obtain ⟨i, u, -, hu, -, rfl⟩ := step_completes h
  obtain ⟨-, hdt, hst, -⟩ := exec_keeps hu
  rw [timerUpdate_dt, timerUpdate_st, hdt, hst]
  exact ⟨fun h0 => by simp [h0], fun h0 => by simp [h0]⟩

/-! ### Reset and the states reached from it -/

/-- Settles O7: R42's table; an address past the glyph table reads as the zero fill. -/
theorem resetValues : Obligations.ResetValues := by
  have hglyphs : glyphs.length = 80 := rfl
  refine ⟨fun r => ?_, rfl, rfl, rfl, fun k => ?_, rfl, rfl, fun k => on_nil k, rfl, fun k => ?_, hglyphs,
    fun a h => ?_, fun a h => ?_⟩
  · simp [State.readV, State.reset]
  · simp [State.readStack, State.reset]
  · simp [State.reset]
  · exact (peek_nil a).trans (by simp [resetByte, h])
  · exact (peek_nil a).trans (by simp [resetByte, hglyphs, h])

/-- Settles O10: nothing is listed and no stack entry is live. -/
theorem addressBoundsAtReset : Obligations.AddressBoundsAtReset :=
  ⟨⟨⟨.nil, by simp [State.reset]⟩, .nil, by simp [State.reset]⟩, by decide, by decide,
    fun k hk => absurd hk (Nat.not_lt_zero k)⟩

/-- The loader writes memory only, and nothing below the program base (R66, R71, R227). -/
theorem loadImage_eq_some {image : List Byte} {s t : State} (h : loadImage image s = some t) :
    t = { s with mem := t.mem } ∧ (s.mem.wf → t.mem.wf) ∧ ∀ a, a < 0x200 → t.mem.peek a = s.mem.peek a := by
  unfold loadImage at h
  split at h
  · rename_i hfits
    obtain rfl := Option.some.inj h
    have hlen : image.length ≤ 3584 := of_decide_eq_true hfits
    refine ⟨rfl, fun hwf => pokes_wf image _ _ hwf (show 0x200 + image.length ≤ 4096 by omega), fun a ha => ?_⟩
    exact (peek_pokes image s.mem 0x200 a).trans (if_neg (by omega))
  · cases h

/-- Settles O58, by induction on the host's moves: the loader sets the bounds up, a key write touches none of it, a
cycle keeps each part. -/
theorem reachableStatesAreBounded : Obligations.ReachableStatesAreBounded := by
  intro s hs
  induction hs with
  | loaded h =>
    obtain ⟨hs, hwf, hlow⟩ := loadImage_eq_some h
    obtain ⟨⟨hmem, hfb⟩, hbounds⟩ := addressBoundsAtReset
    refine ⟨⟨⟨hwf hmem, ?_⟩, ?_⟩, ?_, ?_, hlow⟩ <;> rw [hs]
    · exact hfb
    · exact hbounds
    · rfl
    · rfl
  | keys _ _ ih => exact ih
  | cycle _ hs ih =>
    obtain ⟨hbounds, hdt, hst, hlow⟩ := ih
    obtain ⟨hdt', hst'⟩ := stoppedTimersStayStopped _ _ hs
    obtain ⟨_, u, -, hu, -, rfl⟩ := step_completes hs
    obtain ⟨hmem, -⟩ := exec_keeps hu
    refine ⟨stepKeepsAddressBounds _ _ hbounds hs, hdt' hdt, hst' hst, fun a ha => ?_⟩
    rw [timerUpdate_mem, hmem, hlow a ha]

/-! ### Two states in lockstep -/

/-- The next state of a result, changed. -/
def mapNext (g : State → State) : Result → Result
  | .next t => .next (g t)
  | .fault f => .fault f
  | .refused r => .refused r

/-- Two states with the same memory and `pc` fault alike before the dispatch or dispatch the same instruction. -/
theorem step_lockstep {s s' : State} (hmem : s'.mem = s.mem) (hpc : s'.pc = s.pc) :
    (∃ f, step s = .fault f ∧ step s' = .fault f) ∨
    ∃ i, step s = afterDispatch (exec i s) ∧ step s' = afterDispatch (exec i s') := by
  have hfetch : fetch s' = fetch s := by rw [fetch, hmem, hpc, fetch]
  cases hf : fetch s with
  | error bad =>
    exact .inl ⟨_, step_of_fetch_error hf, hpc ▸ step_of_fetch_error (hfetch.trans hf)⟩
  | ok w =>
    cases hd : decode w with
    | error r => exact .inl ⟨_, step_of_reject hf hd, hpc ▸ step_of_reject (hfetch.trans hf) hd⟩
    | ok i => exact .inr ⟨i, step_of_decode hf hd, step_of_decode (hfetch.trans hf) hd⟩

/-- The state with other stack entries and another sound timer. -/
def State.mapUnseen (f : Vector Word 16 → Vector Word 16) (g : Byte → Byte) (s : State) : State :=
  { s with stack := f s.stack, st := g s.st }

/-- A dispatch other than 00EE and 2NNN looks at neither the stack entries (R31) nor the sound timer (R34). -/
theorem exec_mapUnseen {i : Instr} (hr : i ≠ .ret) (hc : ∀ nnn, i ≠ .call nnn)
    (f : Vector Word 16 → Vector Word 16) (g : Byte → Byte) (s : State) :
    exec i (s.mapUnseen f g) = mapNext (State.mapUnseen f g) (exec i s) := by
  cases i with
  | ret => exact absurd rfl hr
  | call nnn => exact absurd rfl (hc nnn)
  | drw x y n =>
    by_cases hn : n = 0 ∨ s.idx.toNat + n ≤ 4096
    · rw [exec_drw_of_inside x y n s hn]
      exact exec_drw_of_inside x y n (s.mapUnseen f g) hn
    · have hout : 4096 < s.idx.toNat + n := by omega
      rw [exec_drw_of_outside x y n s (by omega) hout]
      exact exec_drw_of_outside x y n (s.mapUnseen f g) (by omega) hout
  | ldVxK x =>
    cases hk : lowestKey s.keys with
    | none =>
      rw [exec_ldVxK_of_none x s hk]
      exact exec_ldVxK_of_none x (s.mapUnseen f g) hk
    | some j =>
      rw [exec_ldVxK_of_some x s j hk]
      exact exec_ldVxK_of_some x (s.mapUnseen f g) j hk
  | _ => rfl

/-! ### The sound timer -/

theorem exec_withSound (i : Instr) (s : State) (b : Byte) :
    exec i (s.withSound b) = mapNext (State.withSound · b) (exec i s) := by
  by_cases hr : i = .ret
  · subst hr
    by_cases hs : 0 < s.sp.val
    · rw [exec_ret_of_pos s hs]
      exact exec_ret_of_pos (s.withSound b) hs
    · rw [exec_ret_of_zero s (by omega)]
      exact exec_ret_of_zero (s.withSound b) (show s.sp.val = 0 by omega)
  by_cases hc : ∃ nnn, i = .call nnn
  · obtain ⟨nnn, rfl⟩ := hc
    by_cases hs : s.sp.val < 16
    · rw [exec_call_of_lt nnn s hs]
      exact exec_call_of_lt nnn (s.withSound b) hs
    · rw [exec_call_of_full nnn s (by omega)]
      exact exec_call_of_full nnn (s.withSound b) (show s.sp.val = 16 by omega)
  exact exec_mapUnseen hr (not_exists.1 hc) id (fun _ => b) s

theorem timerUpdate_withSound (s : State) (b : Byte) :
    ∃ c, timerUpdate (s.withSound b) = (timerUpdate s).withSound c := by
  cases hw : s.wait with
  | running => exact ⟨tick b, by simp [timerUpdate, hw, State.withSound]⟩
  | awaitingKey x => exact ⟨b, by simp [timerUpdate, hw]⟩

/-- Settles O53: the two states step in lockstep, and no dispatch looks at the sound timer. -/
theorem soundTimerInfluencesNothing : Obligations.SoundTimerInfluencesNothing := by
  intro s b
  rcases step_lockstep (s := s) (s' := s.withSound b) rfl rfl with ⟨f, h, h'⟩ | ⟨i, h, h'⟩
  · rw [h, h']
    exact ⟨nofun, fun _ hg => hg⟩
  · rw [h, h', exec_withSound]
    cases exec i s with
    | next u =>
      obtain ⟨c, hc⟩ := timerUpdate_withSound u b
      refine ⟨fun t ht => ⟨c, ?_⟩, nofun⟩
      cases ht
      rw [← hc]; rfl
    | fault f => exact ⟨nofun, fun _ hg => hg⟩
    | refused r => exact ⟨nofun, nofun⟩

/-! ### Dead stack entries -/

theorem agreeOnLive_timerUpdate {s t : State} (h : AgreeOnLive s t) :
    AgreeOnLive (timerUpdate s) (timerUpdate t) := by
  obtain ⟨ht, hlive⟩ := h
  refine ⟨?_, fun k hk => ?_⟩
  · rw [timerUpdate_stack, ht]
    cases hw : s.wait <;> simp [timerUpdate, hw]
  · rw [readStack_timerUpdate, readStack_timerUpdate]
    exact hlive k (timerUpdate_sp s ▸ hk)

theorem resultsAgree_afterDispatch {r q : Result} (h : ResultsAgree r q) :
    ResultsAgree (afterDispatch r) (afterDispatch q) := by
  cases r with
  | next s =>
    cases q with
    | next t => exact agreeOnLive_timerUpdate h
    | fault | refused => exact h
  | fault | refused => cases q <;> exact h

/-- A return reads the entry below `sp`, which is live. -/
theorem exec_ret_agree {s s' : State} (h : AgreeOnLive s s') : ResultsAgree (exec .ret s) (exec .ret s') := by
  obtain ⟨hs', hlive⟩ := h
  generalize s'.stack = e at hs'
  subst hs'
  by_cases hs : 0 < s.sp.val
  · have hentry := hlive ⟨s.sp.val - 1, by omega⟩ (show s.sp.val - 1 < s.sp.val by omega)
    rw [exec_ret_of_pos s hs, exec_ret_of_pos { s with stack := e } hs, hentry]
    refine ⟨rfl, fun k hk => hlive k ?_⟩
    have hk : k.val < s.sp.val - 1 := hk
    omega
  · have hs : s.sp.val = 0 := by omega
    rw [exec_ret_of_zero s hs, exec_ret_of_zero { s with stack := e } hs]
    rfl

/-- A call writes the same value to the entry that becomes live in both states. -/
theorem exec_call_agree {s s' : State} (nnn : Addr) (h : AgreeOnLive s s') :
    ResultsAgree (exec (.call nnn) s) (exec (.call nnn) s') := by
  obtain ⟨hs', hlive⟩ := h
  generalize s'.stack = e at hs'
  subst hs'
  by_cases hs : s.sp.val < 16
  · rw [exec_call_of_lt nnn s hs, exec_call_of_lt nnn { s with stack := e } hs]
    refine ⟨rfl, fun k hk => ?_⟩
    have hk : k.val < s.sp.val + 1 := hk
    have hread := readStack_set s s.sp.val hs s.pc k
    have hread' := readStack_set { s with stack := e } s.sp.val hs s.pc k
    refine hread'.trans (Eq.trans ?_ hread.symm)
    split
    · rfl
    · exact hlive k (by omega)
  · have hs : s.sp.val = 16 := by omega
    rw [exec_call_of_full nnn s hs, exec_call_of_full nnn { s with stack := e } hs]
    rfl

/-- Every dispatch takes states that differ in dead entries only to results that do. -/
theorem exec_agree {s s' : State} (i : Instr) (h : AgreeOnLive s s') : ResultsAgree (exec i s) (exec i s') := by
  by_cases hr : i = .ret
  · exact hr ▸ exec_ret_agree h
  by_cases hc : ∃ nnn, i = .call nnn
  · obtain ⟨nnn, rfl⟩ := hc
    exact exec_call_agree nnn h
  have hc : ∀ nnn, i ≠ .call nnn := not_exists.1 hc
  obtain ⟨hs', hlive⟩ := h
  have hmap := exec_mapUnseen hr hc (fun _ => s'.stack) id s
  have hs' : s' = s.mapUnseen (fun _ => s'.stack) id := hs'
  rw [← hs'] at hmap
  rw [hmap]
  cases he : exec i s with
  | next u =>
    obtain ⟨hsp, hentry⟩ := (exec_completes he).keepsStack hr hc
    refine ⟨rfl, fun k hk => ?_⟩
    rw [hentry]
    exact hlive k (hsp ▸ hk)
  | fault f => rfl
  | refused r => rfl

/-- Settles O54: the two states step in lockstep, and every dispatch and the timer update keep the agreement. -/
theorem deadStackEntriesAreNeverSeen : Obligations.DeadStackEntriesAreNeverSeen := by
  intro s s' h
  have hmem : s'.mem = s.mem := by rw [h.1]
  have hpc : s'.pc = s.pc := by rw [h.1]
  rcases step_lockstep hmem hpc with ⟨f, hf, hf'⟩ | ⟨i, hi, hi'⟩
  · rw [hf, hf']; rfl
  · rw [hi, hi']; exact resultsAgree_afterDispatch (exec_agree i h)

end Sys2Proof.Machine

/-! # Proofs about memory (`20_memory.md`)

A canonical list is determined by what reads back from it, since its members are exactly the addresses that read other
than unlisted ones do (`Memory.wf.mem_iff`, `Framebuffer.wf.mem_iff`). That the keys are read by FX0A only is a
commuting square: a dispatch before or after the host writes the keys (`exec_withKeys`). -/

namespace Sys2Proof.Machine

/-! ### The checked reads -/

theorem memRead1_error {m : Memory} {a : Nat} (h : 4096 ≤ a) : memRead1 m a = .error a := by
  have hbad : memCheck a 1 = some a := memCheck_eq_some.2 ⟨by omega, (Nat.max_eq_left h).symm⟩
  simp only [memRead1, hbad]

/-- Settles O11: by the laws of the checked reads; a two-byte read beyond memory reports the greater of its address and
4096. -/
theorem memReadReturnsBytesOrTheOffendingAddress : Obligations.MemReadReturnsBytesOrTheOffendingAddress := by
  refine fun m a => ⟨fun h => memRead1_ok (by omega), fun h => ⟨_, memRead2_ok (by omega), wordOfBytes_toNat _ _⟩,
    fun h => memRead1_error (by omega), fun h => ⟨max a 4096, memRead2_error (by omega), ?_⟩⟩
  exact ⟨by omega, by omega, fun c _ _ => by omega⟩

/-! ### Canonical forms -/

theorem peek_of_mem {m : Memory} {c : Host.Cell} (hm : m.Pairwise (fun c d => c.1 < d.1)) (hc : c ∈ m) :
    m.peek c.1 = c.2 := by
  induction m with
  | nil => cases hc
  | cons d m ih =>
    have ⟨hd, hm'⟩ := List.pairwise_cons.1 hm
    rw [peek_cons]
    rcases List.mem_cons.1 hc with rfl | hc
    · exact if_pos rfl
    · rw [if_neg (hd c hc).ne, ih hm' hc]

theorem mem_of_peek_ne_resetByte {m : Memory} {c : Host.Cell} (hc : m.peek c.1 = c.2) (hne : c.2 ≠ resetByte c.1) :
    c ∈ m := by
  induction m with
  | nil => exact absurd hc.symm hne
  | cons d m ih =>
    rw [peek_cons] at hc
    by_cases hd : d.1 = c.1
    · rw [if_pos hd] at hc
      exact List.mem_cons.2 (.inl (Prod.ext hd hc).symm)
    · rw [if_neg hd] at hc
      exact List.mem_cons_of_mem d (ih hc)

/-- The cells a canonical memory lists: those that read other than reset left them. -/
theorem Memory.wf.mem_iff {m : Memory} (hm : m.wf) (c : Host.Cell) :
    c ∈ m ↔ c.1 < 4096 ∧ m.peek c.1 = c.2 ∧ c.2 ≠ resetByte c.1 := by
  constructor
  · intro hc
    obtain ⟨hlt, hne⟩ := hm.2 c hc
    exact ⟨hlt, peek_of_mem hm.1 hc, hne⟩
  · rintro ⟨-, hc, hne⟩
    exact mem_of_peek_ne_resetByte hc hne

/-- The entries a canonical framebuffer lists: those that are on. -/
theorem Framebuffer.wf.mem_iff {f : Framebuffer} (hf : f.wf) (k : Nat) : k ∈ f ↔ k < 2048 ∧ f.on k = true := by
  rw [on_iff_mem]
  exact ⟨fun hk => ⟨hf.2 k hk, hk⟩, fun hk => hk.2⟩

theorem Memory.wf.eq_of_peek_eq {m m' : Memory} (hm : m.wf) (hm' : m'.wf)
    (h : ∀ a, a ≤ 4095 → m.peek a = m'.peek a) : m = m' := by
  have : Std.Asymm (fun c d : Host.Cell => c.1 < d.1) := ⟨fun _ _ => Nat.lt_asymm⟩
  refine hm.1.eq_of_mem_iff hm'.1 fun c => ?_
  rw [hm.mem_iff, hm'.mem_iff]
  exact and_congr_right fun hlt => by rw [h c.1 (by omega)]

theorem Framebuffer.wf.eq_of_on_eq {f f' : Framebuffer} (hf : f.wf) (hf' : f'.wf)
    (h : ∀ k, k < 2048 → f.on k = f'.on k) : f = f' := by
  refine hf.1.eq_of_mem_iff hf'.1 fun k => ?_
  rw [hf.mem_iff, hf'.mem_iff]
  exact and_congr_right fun hlt => by rw [h k hlt]

/-- Settles O13: two canonical lists that read alike have the same members, in the same rising order. -/
theorem canonicalFormsThatReadAlikeAreEqual : Obligations.CanonicalFormsThatReadAlikeAreEqual :=
  ⟨fun _ _ hm hm' => hm.eq_of_peek_eq hm', fun _ _ hf hf' => hf.eq_of_on_eq hf'⟩

/-! ### What a step leaves to the host -/

/-- Settles O51: neither the dispatch nor the timer update writes them. -/
theorem stepWritesNeitherMemoryNorKeys : Obligations.StepWritesNeitherMemoryNorKeys := by
  intro s t h
  obtain ⟨i, u, -, hu, -, rfl⟩ := step_completes h
  obtain ⟨hmem, -, -, hkeys⟩ := exec_keeps hu
  exact ⟨fun a => by rw [timerUpdate_mem, hmem], (timerUpdate_keys u).trans hkeys⟩

/-- Writing the keys commutes with every dispatch but FX0A's, which alone reads them (R20, R60). -/
theorem exec_withKeys {i : Instr} (hi : ∀ x, i ≠ .ldVxK x) (s : State) (keys : Vector Bool 16) :
    exec i (s.withKeys keys) = mapNext (State.withKeys · keys) (exec i s) := by
  cases i with
  | ldVxK x => exact absurd rfl (hi x)
  | ret =>
    by_cases hs : 0 < s.sp.val
    · rw [exec_ret_of_pos s hs]
      exact exec_ret_of_pos (s.withKeys keys) hs
    · rw [exec_ret_of_zero s (by omega)]
      exact exec_ret_of_zero (s.withKeys keys) (show s.sp.val = 0 by omega)
  | call nnn =>
    by_cases hs : s.sp.val < 16
    · rw [exec_call_of_lt nnn s hs]
      exact exec_call_of_lt nnn (s.withKeys keys) hs
    · rw [exec_call_of_full nnn s (by omega)]
      exact exec_call_of_full nnn (s.withKeys keys) (show s.sp.val = 16 by omega)
  | drw x y n =>
    by_cases hn : n = 0 ∨ s.idx.toNat + n ≤ 4096
    · rw [exec_drw_of_inside x y n s hn]
      exact exec_drw_of_inside x y n (s.withKeys keys) hn
    · have hout : 4096 < s.idx.toNat + n := by omega
      rw [exec_drw_of_outside x y n s (by omega) hout]
      exact exec_drw_of_outside x y n (s.withKeys keys) (by omega) hout
  | _ => rfl

/-- Settles O52: the dispatch from the other keys is the first one's result with those keys written. -/
theorem onlyTheKeyWaitReadsTheKeys : Obligations.OnlyTheKeyWaitReadsTheKeys := by
  refine fun i s keys hi => ⟨fun t h => ?_, fun f h => ?_⟩ <;> (rw [exec_withKeys hi, h]; rfl)

end Sys2Proof.Machine

/-! # Proofs about the encoding (`30_encoding.md`)

The decoder is taken apart by its groups, once for the words it takes (`encode_of_decodeGroup`) and once for the words
it rejects (`decodeGroup_error_iff`). The agreement with R96's table then follows from the two round trips and the
encoder alone: the words a row matches are the words of that row's instructions (`Instr.row_matchesWord_encode`,
`exists_encode_eq_of_matchesWord`). -/

namespace Sys2Proof

/-! ### Decode of encode -/

/-- Settles O3: one round trip per constructor. -/
theorem decodeOfEncodeIsTheInstruction : Obligations.DecodeOfEncodeIsTheInstruction := by
  intro i
  cases i with
  | cls => exact Laws.RoundTrip.cls
  | ret => exact Laws.RoundTrip.ret
  | jp nnn => exact Laws.RoundTrip.jp nnn
  | call nnn => exact Laws.RoundTrip.call nnn
  | seVxNn x nn => exact Laws.RoundTrip.seVxNn x nn
  | sneVxNn x nn => exact Laws.RoundTrip.sneVxNn x nn
  | seVxVy x y => exact Laws.RoundTrip.seVxVy x y
  | ldVxNn x nn => exact Laws.RoundTrip.ldVxNn x nn
  | addVxNn x nn => exact Laws.RoundTrip.addVxNn x nn
  | ldVxVy x y => exact Laws.RoundTrip.ldVxVy x y
  | or x y => exact Laws.RoundTrip.or x y
  | and x y => exact Laws.RoundTrip.and x y
  | xor x y => exact Laws.RoundTrip.xor x y
  | addVxVy x y => exact Laws.RoundTrip.addVxVy x y
  | sub x y => exact Laws.RoundTrip.sub x y
  | shr x y => exact Laws.RoundTrip.shr x y
  | subn x y => exact Laws.RoundTrip.subn x y
  | shl x y => exact Laws.RoundTrip.shl x y
  | sneVxVy x y => exact Laws.RoundTrip.sneVxVy x y
  | ldINnn nnn => exact Laws.RoundTrip.ldINnn nnn
  | jpV0Nnn nnn => exact Laws.RoundTrip.jpV0Nnn nnn
  | drw x y n => exact Laws.RoundTrip.drw x y n
  | ldVxDt x => exact Laws.RoundTrip.ldVxDt x
  | ldVxK x => exact Laws.RoundTrip.ldVxK x

/-! ### A word of a known group -/

theorem formatA_of_group {w : Word} {g : BitVec 4} (hg : fieldG w = g) : formatA g (fieldNNN w) = w :=
  hg ▸ formatA_fields w

theorem formatRI_of_group {w : Word} {g : BitVec 4} (hg : fieldG w = g) : formatRI g (fieldX w) (fieldNN w) = w :=
  hg ▸ formatRI_fields w

theorem formatRI_of_byte {w : Word} {g : BitVec 4} {nn : Byte} (h : fieldG w = g ∧ fieldNN w = nn) :
    formatRI g (fieldX w) nn = w := by
  obtain ⟨rfl, rfl⟩ := h
  exact formatRI_fields w

theorem formatRR_of_nibble {w : Word} {g n : BitVec 4} (h : fieldG w = g ∧ fieldN w = n) :
    formatRR g (fieldX w) (fieldY w) n = w := by
  obtain ⟨rfl, rfl⟩ := h
  exact formatRR_fields w

/-- A draw reads its row count as a number and writes it back as a nibble. -/
theorem formatRR_of_rows {w : Word} {g : BitVec 4} (hg : fieldG w = g) :
    formatRR g (fieldX w) (fieldY w) (BitVec.ofNat 4 (fieldN w).toNat) = w :=
  formatRR_of_nibble ⟨hg, (BitVec.ofNat_toNat 4 _).trans (BitVec.setWidth_eq _) |>.symm⟩

/-! ### Encode of decode -/

theorem encode_of_decodeGroup0 {w : Word} {i : Instr} (h : decodeGroup0 w = .ok i) : encode i = w ∧ i.wf = true := by
  unfold decodeGroup0 at h
  split at h
  next hw => cases h; exact ⟨hw.symm, rfl⟩
  next =>
    split at h
    next hw => cases h; exact ⟨hw.symm, rfl⟩
    next => cases h

theorem encode_of_decodeGroup8 {n : BitVec 4} {x y : Reg} {i : Instr} (h : decodeGroup8 n x y = .ok i) :
    encode i = formatRR 0x8#4 x y n ∧ i.wf = true := by
  unfold decodeGroup8 at h
  split at h <;> cases h <;> exact ⟨rfl, rfl⟩

theorem encode_of_decodeGroupF {nn : Byte} {x : Reg} {i : Instr} (h : decodeGroupF nn x = .ok i) :
    encode i = formatRI 0xF#4 x nn ∧ i.wf = true := by
  unfold decodeGroupF at h
  split at h <;> cases h <;> exact ⟨rfl, rfl⟩

theorem encode_of_decodeGroup {g : BitVec 4} {w : Word} {i : Instr} (hg : fieldG w = g)
    (h : decodeGroup g w = .ok i) : encode i = w ∧ i.wf = true := by
  unfold decodeGroup at h
  split at h
  next => exact encode_of_decodeGroup0 h
  next => cases h; exact ⟨formatA_of_group hg, rfl⟩
  next => cases h; exact ⟨formatA_of_group hg, rfl⟩
  next => cases h; exact ⟨formatRI_of_group hg, rfl⟩
  next => cases h; exact ⟨formatRI_of_group hg, rfl⟩
  next =>
    split at h
    next hn => cases h; exact ⟨formatRR_of_nibble ⟨hg, hn⟩, rfl⟩
    next => cases h
  next => cases h; exact ⟨formatRI_of_group hg, rfl⟩
  next => cases h; exact ⟨formatRI_of_group hg, rfl⟩
  next =>
    obtain ⟨he, hwf⟩ := encode_of_decodeGroup8 h
    exact ⟨he.trans (formatRR_of_nibble ⟨hg, rfl⟩), hwf⟩
  next =>
    split at h
    next hn => cases h; exact ⟨formatRR_of_nibble ⟨hg, hn⟩, rfl⟩
    next => cases h
  next => cases h; exact ⟨formatA_of_group hg, rfl⟩
  next => cases h; exact ⟨formatA_of_group hg, rfl⟩
  next => cases h
  next => cases h; exact ⟨formatRR_of_rows hg, decide_eq_true (fieldN w).isLt⟩
  next => cases h
  next =>
    have hF : g = 0xF#4 := by simp only [imp_false] at *; bv_omega
    obtain ⟨he, hwf⟩ := encode_of_decodeGroupF h
    exact ⟨he.trans (formatRI_of_group (hg.trans hF)), hwf⟩

/-- Settles O4: by the groups of the decoder; every arm takes its operands from the fields its format puts them in. -/
theorem encodeOfDecodeIsTheWord : Obligations.EncodeOfDecodeIsTheWord :=
  fun _ _ h => encode_of_decodeGroup rfl h

/-! ### The rejected words -/

theorem exists_error_ite_iff {c : Prop} [Decidable c] (i : Instr) (e : Reject) :
    (∃ r, (if c then Except.ok i else .error e) = .error r) ↔ ¬ c := by
  split
  next hc => simp [hc]
  next hc => simp [hc]

theorem decodeGroup0_error_iff (w : Word) : (∃ r, decodeGroup0 w = .error r) ↔ w ≠ 0x00E0 ∧ w ≠ 0x00EE := by
  unfold decodeGroup0
  split
  next hw => simp [hw]
  next hw => simpa [hw] using exists_error_ite_iff .ret .group0

theorem decodeGroup8_error_iff (n : BitVec 4) (x y : Reg) :
    (∃ r, decodeGroup8 n x y = .error r) ↔ n.toNat ∈ [8, 9, 10, 11, 12, 13, 15] := by
  unfold decodeGroup8
  split
  case h_10 =>
    refine iff_of_true ⟨_, rfl⟩ ?_
    simp only [imp_false, List.mem_cons, List.not_mem_nil, or_false] at *
    bv_omega
  all_goals simp

theorem decodeGroupF_error_iff (nn : Byte) (x : Reg) :
    (∃ r, decodeGroupF nn x = .error r) ↔ nn.toNat ≠ 0x07 ∧ nn.toNat ≠ 0x0A := by
  unfold decodeGroupF
  split
  next => simp
  next => simp
  next h7 hA =>
    exact iff_of_true ⟨_, rfl⟩ ⟨fun h => h7 (BitVec.eq_of_toNat_eq h), fun h => hA (BitVec.eq_of_toNat_eq h)⟩

theorem decodeGroup_error_iff (g : BitVec 4) (w : Word) :
    (∃ r, decodeGroup g w = .error r) ↔
      (g.toNat = 0 ∧ w ≠ 0x00E0 ∧ w ≠ 0x00EE) ∨ (g.toNat = 5 ∧ (fieldN w).toNat ≠ 0) ∨
      (g.toNat = 8 ∧ (fieldN w).toNat ∈ [8, 9, 10, 11, 12, 13, 15]) ∨ (g.toNat = 9 ∧ (fieldN w).toNat ≠ 0) ∨
      g.toNat = 12 ∨ g.toNat = 14 ∨ (g.toNat = 15 ∧ (fieldNN w).toNat ≠ 0x07 ∧ (fieldNN w).toNat ≠ 0x0A) := by
  unfold decodeGroup
  split
  case h_1 => simpa using decodeGroup0_error_iff w
  case h_6 => simp [exists_error_ite_iff, ← BitVec.toNat_inj]
  case h_9 => simpa using decodeGroup8_error_iff (fieldN w) (fieldX w) (fieldY w)
  case h_10 => simp [exists_error_ite_iff, ← BitVec.toNat_inj]
  case h_16 =>
    have hF : g = 0xF#4 := by simp only [imp_false] at *; bv_omega
    simpa [hF] using decodeGroupF_error_iff (fieldNN w) (fieldX w)
  all_goals simp

/-- Settles O5: the words each group rejects, the group and the low bits read as numbers. -/
theorem rejectsExactlyTheUnrecognisedWords : Obligations.RejectsExactlyTheUnrecognisedWords := by
  intro w
  rw [← fieldG_toNat, ← fieldN_toNat, ← fieldNN_toNat]
  exact decodeGroup_error_iff (fieldG w) w

/-! ### What a row matches: the match column is a format with its operands 0 -/

theorem matchesWord_iff (m : String) (p k w : Word) : OpRow.matchesWord ⟨m, p, k⟩ w = true ↔ w &&& k = p :=
  decide_eq_true_iff

theorem matchesWord_F000 (m : String) (g : BitVec 4) (w : Word) :
    OpRow.matchesWord ⟨m, formatA g 0, 0xF000⟩ w = true ↔ fieldG w = g := by
  rw [matchesWord_iff, show w &&& 0xF000 = formatA (fieldG w) 0 from and_F000 w]
  exact ⟨fun h => by simpa only [fieldG_formatA] using congrArg fieldG h, fun h => h ▸ rfl⟩

theorem matchesWord_F0FF (m : String) (g : BitVec 4) (nn : Byte) (w : Word) :
    OpRow.matchesWord ⟨m, formatRI g 0 nn, 0xF0FF⟩ w = true ↔ fieldG w = g ∧ fieldNN w = nn := by
  rw [matchesWord_iff, show w &&& 0xF0FF = formatRI (fieldG w) 0 (fieldNN w) from and_F0FF w]
  constructor
  · intro h
    exact ⟨by simpa only [fieldG_formatRI] using congrArg fieldG h,
      by simpa only [fieldNN_formatRI] using congrArg fieldNN h⟩
  · rintro ⟨rfl, rfl⟩; rfl

theorem zero_append_nibble : ∀ n : BitVec 4, (0#8 ++ n : Addr) = 0#4 ++ (0#4 ++ n) := by
  decide

theorem matchesWord_F00F (m : String) (g n : BitVec 4) (w : Word) :
    OpRow.matchesWord ⟨m, formatRR g 0 0 n, 0xF00F⟩ w = true ↔ fieldG w = g ∧ fieldN w = n := by
  have hw : w &&& 0xF00F = formatRR (fieldG w) 0 0 (fieldN w) :=
    (and_F00F w).trans (congrArg (fieldG w ++ ·) (zero_append_nibble (fieldN w)))
  rw [matchesWord_iff, hw]
  constructor
  · intro h
    exact ⟨by simpa only [fieldG_formatRR] using congrArg fieldG h,
      by simpa only [fieldN_formatRR] using congrArg fieldN h⟩
  · rintro ⟨rfl, rfl⟩; rfl

theorem matchesWord_FFFF (m : String) (p w : Word) : OpRow.matchesWord ⟨m, p, 0xFFFF⟩ w = true ↔ w = p := by
  rw [matchesWord_iff, and_FFFF]

/-! ### The row of an instruction -/

theorem Instr.ctorIdx_lt (i : Instr) : i.ctorIdx < opcodeTable.length := by
  cases i <;> simp [Instr.ctorIdx, opcodeTable]

/-- The row of an instruction: the constructors stand in the table's order. -/
def Instr.row (i : Instr) : OpRow := opcodeTable[i.ctorIdx]'i.ctorIdx_lt

theorem Instr.row_mem (i : Instr) : i.row ∈ opcodeTable := List.getElem_mem i.ctorIdx_lt

theorem Instr.row_mnemonic (i : Instr) : i.row.mnemonic = i.mnemonic := by
  cases i <;> rfl

theorem matchesWord_formatRR (m : String) (g : BitVec 4) (x y : Reg) (n : BitVec 4) :
    OpRow.matchesWord ⟨m, formatRR g 0 0 n, 0xF00F⟩ (formatRR g x y n) = true :=
  (matchesWord_F00F m g n _).2 ⟨fieldG_formatRR g x y n, fieldN_formatRR g x y n⟩

theorem matchesWord_formatRI (m : String) (g : BitVec 4) (x : Reg) (nn : Byte) :
    OpRow.matchesWord ⟨m, formatRI g 0 nn, 0xF0FF⟩ (formatRI g x nn) = true :=
  (matchesWord_F0FF m g nn _).2 ⟨fieldG_formatRI g x nn, fieldNN_formatRI g x nn⟩

theorem Instr.row_matchesWord_encode (i : Instr) : i.row.matchesWord (encode i) = true := by
  cases i with
  | cls => rfl
  | ret => rfl
  | jp nnn => exact (matchesWord_F000 _ 0x1#4 _).2 (fieldG_formatA _ nnn)
  | call nnn => exact (matchesWord_F000 _ 0x2#4 _).2 (fieldG_formatA _ nnn)
  | seVxNn x nn => exact (matchesWord_F000 _ 0x3#4 _).2 (fieldG_formatRI _ x nn)
  | sneVxNn x nn => exact (matchesWord_F000 _ 0x4#4 _).2 (fieldG_formatRI _ x nn)
  | seVxVy x y => exact matchesWord_formatRR _ 0x5#4 x y 0x0#4
  | ldVxNn x nn => exact (matchesWord_F000 _ 0x6#4 _).2 (fieldG_formatRI _ x nn)
  | addVxNn x nn => exact (matchesWord_F000 _ 0x7#4 _).2 (fieldG_formatRI _ x nn)
  | ldVxVy x y => exact matchesWord_formatRR _ 0x8#4 x y 0x0#4
  | or x y => exact matchesWord_formatRR _ 0x8#4 x y 0x1#4
  | and x y => exact matchesWord_formatRR _ 0x8#4 x y 0x2#4
  | xor x y => exact matchesWord_formatRR _ 0x8#4 x y 0x3#4
  | addVxVy x y => exact matchesWord_formatRR _ 0x8#4 x y 0x4#4
  | sub x y => exact matchesWord_formatRR _ 0x8#4 x y 0x5#4
  | shr x y => exact matchesWord_formatRR _ 0x8#4 x y 0x6#4
  | subn x y => exact matchesWord_formatRR _ 0x8#4 x y 0x7#4
  | shl x y => exact matchesWord_formatRR _ 0x8#4 x y 0xE#4
  | sneVxVy x y => exact matchesWord_formatRR _ 0x9#4 x y 0x0#4
  | ldINnn nnn => exact (matchesWord_F000 _ 0xA#4 _).2 (fieldG_formatA _ nnn)
  | jpV0Nnn nnn => exact (matchesWord_F000 _ 0xB#4 _).2 (fieldG_formatA _ nnn)
  | drw x y n => exact (matchesWord_F000 _ 0xD#4 _).2 (fieldG_formatRR _ x y _)
  | ldVxDt x => exact matchesWord_formatRI _ 0xF#4 x 0x07#8
  | ldVxK x => exact matchesWord_formatRI _ 0xF#4 x 0x0A#8

/-- A word a row matches is a word of that row's instruction: its operands are the fields the mask leaves out. -/
theorem exists_encode_eq_of_matchesWord {r : OpRow} (hr : r ∈ opcodeTable) {w : Word} (h : r.matchesWord w = true) :
    ∃ i : Instr, i.wf = true ∧ encode i = w ∧ i.row = r := by
  simp only [opcodeTable, List.cons_append, List.nil_append, List.mem_cons, List.not_mem_nil, or_false] at hr
  rcases hr with rfl | rfl | rfl | rfl | rfl | rfl | rfl | rfl | rfl | rfl | rfl | rfl | rfl | rfl | rfl | rfl | rfl |
    rfl | rfl | rfl | rfl | rfl | rfl | rfl
  · exact ⟨.cls, rfl, ((matchesWord_FFFF _ _ w).1 h).symm, rfl⟩
  · exact ⟨.ret, rfl, ((matchesWord_FFFF _ _ w).1 h).symm, rfl⟩
  · exact ⟨.jp (fieldNNN w), rfl, formatA_of_group ((matchesWord_F000 _ 0x1#4 w).1 h), rfl⟩
  · exact ⟨.call (fieldNNN w), rfl, formatA_of_group ((matchesWord_F000 _ 0x2#4 w).1 h), rfl⟩
  · exact ⟨.seVxNn (fieldX w) (fieldNN w), rfl, formatRI_of_group ((matchesWord_F000 _ 0x3#4 w).1 h), rfl⟩
  · exact ⟨.sneVxNn (fieldX w) (fieldNN w), rfl, formatRI_of_group ((matchesWord_F000 _ 0x4#4 w).1 h), rfl⟩
  · exact ⟨.seVxVy (fieldX w) (fieldY w), rfl, formatRR_of_nibble ((matchesWord_F00F _ 0x5#4 0x0#4 w).1 h), rfl⟩
  · exact ⟨.ldVxNn (fieldX w) (fieldNN w), rfl, formatRI_of_group ((matchesWord_F000 _ 0x6#4 w).1 h), rfl⟩
  · exact ⟨.addVxNn (fieldX w) (fieldNN w), rfl, formatRI_of_group ((matchesWord_F000 _ 0x7#4 w).1 h), rfl⟩
  · exact ⟨.ldVxVy (fieldX w) (fieldY w), rfl, formatRR_of_nibble ((matchesWord_F00F _ 0x8#4 0x0#4 w).1 h), rfl⟩
  · exact ⟨.or (fieldX w) (fieldY w), rfl, formatRR_of_nibble ((matchesWord_F00F _ 0x8#4 0x1#4 w).1 h), rfl⟩
  · exact ⟨.and (fieldX w) (fieldY w), rfl, formatRR_of_nibble ((matchesWord_F00F _ 0x8#4 0x2#4 w).1 h), rfl⟩
  · exact ⟨.xor (fieldX w) (fieldY w), rfl, formatRR_of_nibble ((matchesWord_F00F _ 0x8#4 0x3#4 w).1 h), rfl⟩
  · exact ⟨.addVxVy (fieldX w) (fieldY w), rfl, formatRR_of_nibble ((matchesWord_F00F _ 0x8#4 0x4#4 w).1 h), rfl⟩
  · exact ⟨.sub (fieldX w) (fieldY w), rfl, formatRR_of_nibble ((matchesWord_F00F _ 0x8#4 0x5#4 w).1 h), rfl⟩
  · exact ⟨.shr (fieldX w) (fieldY w), rfl, formatRR_of_nibble ((matchesWord_F00F _ 0x8#4 0x6#4 w).1 h), rfl⟩
  · exact ⟨.subn (fieldX w) (fieldY w), rfl, formatRR_of_nibble ((matchesWord_F00F _ 0x8#4 0x7#4 w).1 h), rfl⟩
  · exact ⟨.shl (fieldX w) (fieldY w), rfl, formatRR_of_nibble ((matchesWord_F00F _ 0x8#4 0xE#4 w).1 h), rfl⟩
  · exact ⟨.sneVxVy (fieldX w) (fieldY w), rfl, formatRR_of_nibble ((matchesWord_F00F _ 0x9#4 0x0#4 w).1 h), rfl⟩
  · exact ⟨.ldINnn (fieldNNN w), rfl, formatA_of_group ((matchesWord_F000 _ 0xA#4 w).1 h), rfl⟩
  · exact ⟨.jpV0Nnn (fieldNNN w), rfl, formatA_of_group ((matchesWord_F000 _ 0xB#4 w).1 h), rfl⟩
  · exact ⟨.drw (fieldX w) (fieldY w) (fieldN w).toNat, decide_eq_true (fieldN w).isLt,
      formatRR_of_rows ((matchesWord_F000 _ 0xD#4 w).1 h), rfl⟩
  · exact ⟨.ldVxDt (fieldX w), rfl, formatRI_of_byte ((matchesWord_F0FF _ 0xF#4 0x07#8 w).1 h), rfl⟩
  · exact ⟨.ldVxK (fieldX w), rfl, formatRI_of_byte ((matchesWord_F0FF _ 0xF#4 0x0A#8 w).1 h), rfl⟩

/-- A row matches the words that decode to its instructions, and no others. -/
theorem matchesWord_iff_decode {r : OpRow} (hr : r ∈ opcodeTable) (w : Word) :
    r.matchesWord w = true ↔ ∃ i, decode w = .ok i ∧ i.row = r := by
  constructor
  · intro h
    obtain ⟨i, hwf, rfl, hi⟩ := exists_encode_eq_of_matchesWord hr h
    exact ⟨i, decodeOfEncodeIsTheInstruction i hwf, hi⟩
  · rintro ⟨i, hd, rfl⟩
    rw [← (encodeOfDecodeIsTheWord w i hd).1]
    exact i.row_matchesWord_encode

/-- Settles O6: the row a word matches is the row of the one instruction the word decodes to. -/
theorem decoderAgreesWithTheOpcodeTable : Obligations.DecoderAgreesWithTheOpcodeTable := by
  refine ⟨rfl, fun w i hd => ⟨i.row, i.row_mem, ?_, i.row_mnemonic, fun q hq hqw => ?_⟩, fun w e he r hr => ?_⟩
  · exact (matchesWord_iff_decode i.row_mem w).2 ⟨i, hd, rfl⟩
  · obtain ⟨j, hj, rfl⟩ := (matchesWord_iff_decode hq w).1 hqw
    cases hd.symm.trans hj
    rfl
  · refine Bool.eq_false_iff.2 fun hrw => ?_
    obtain ⟨i, hi, -⟩ := (matchesWord_iff_decode hr w).1 hrw
    cases he.symm.trans hi

/-! ### Worked words and the fields -/

/-- Settles O1, by evaluation at R104's words. -/
theorem workedEncodingsDecode : Obligations.WorkedEncodingsDecode := by
  unfold Obligations.WorkedEncodingsDecode
  decide

/-- Settles O2, by evaluation at one word of each row. -/
theorem oneWordOfEachRowDecodes : Obligations.OneWordOfEachRowDecodes := by
  unfold Obligations.OneWordOfEachRowDecodes
  decide

/-- `Y ++ N` is the byte of the word read as format RI. -/
theorem fieldNN_eq_append (w : Word) : fieldNN w = regBits (fieldY w) ++ fieldN w :=
  (congrArg fieldNN (formatRR_fields w)).symm.trans
    (fieldNN_formatRI (fieldG w) (fieldX w) (regBits (fieldY w) ++ fieldN w))

/-- `X ++ Y ++ N` is the address of the word read as format A. -/
theorem fieldNNN_eq_append (w : Word) : fieldNNN w = regBits (fieldX w) ++ (regBits (fieldY w) ++ fieldN w) :=
  (congrArg fieldNNN (formatRR_fields w)).symm.trans
    (fieldNNN_formatA (fieldG w) (regBits (fieldX w) ++ (regBits (fieldY w) ++ fieldN w)))

/-- Settles O60: the fields as numbers, and the overlaps, which hold because the three formats are one word bracketed
in three ways. -/
theorem fieldsOfAWord : Obligations.FieldsOfAWord := fun w =>
  ⟨fieldG_toNat w, fieldX_val w, fieldY_val w, fieldN_toNat w, fieldNN_toNat w, fieldNNN_toNat w,
    fieldNN_eq_append w, fieldNNN_eq_append w⟩

end Sys2Proof

/-! # Proofs about the cycle (`40_cycle.md`)

A completed dispatch keeps both timers (`exec_keeps`), so what a cycle does to them is what `timerUpdate` does after it
(R126). The offending address of a failed fetch is a word (`ofNat_max_memSize`). -/

namespace Sys2Proof.Machine

/-! ### The fetch -/

/-- R219: the offending address of a failed fetch is 0x1000 when only the second byte lies beyond memory, else `pc`
itself, which is never reduced. -/
theorem ofNat_max_memSize {p : Word} (h : 4094 < p.toNat) :
    BitVec.ofNat 16 (max p.toNat 4096) = if p = 0x0FFF then 0x1000 else p := by
  split
  case isTrue hp => subst hp; rfl
  case isFalse hp =>
    have hmem : 4096 ≤ p.toNat := by bv_omega
    rw [Nat.max_eq_left hmem, BitVec.ofNat_toNat, BitVec.setWidth_eq]

/-- Settles O12: up to 4094 both bytes are inside memory; above it the fetch reports the offending address. -/
theorem fetchReadsTheWordOrFaults : Obligations.FetchReadsTheWordOrFaults := by
  refine fun s => ⟨fun h => ⟨_, fetch_ok h, wordOfBytes_toNat _ _⟩, fun h => ?_⟩
  rw [step_of_fetch_error (fetch_error h), ofNat_max_memSize h]

/-! ### The timer update -/

theorem tick_eq_ite (t : Byte) : tick t = if t ≠ 0 then t - 1 else t := by
  by_cases h : t = 0
  · subst h; rfl
  · rw [tick, if_neg h, if_pos h]

/-- The Timer Unit as one record update, each timer with its own condition (R126). -/
theorem timerUpdate_eq (s : State) :
    timerUpdate s = { s with
      dt := if s.wait = .running ∧ s.dt ≠ 0 then s.dt - 1 else s.dt
      st := if s.wait = .running ∧ s.st ≠ 0 then s.st - 1 else s.st } := by
  unfold timerUpdate
  split
  case h_1 hw => simp [hw, tick_eq_ite]
  case h_2 x hw =>
    have hrun : s.wait ≠ .running := by simp [hw]
    simp [hrun]

/-- Settles O15: the fetch and the decode succeed, and `afterDispatch` updates the timers of a completed dispatch. -/
theorem stepRunsTheDecodedInstruction : Obligations.StepRunsTheDecodedInstruction := by
  intro s i hpc hd
  rw [step_of_decode (fetch_ok hpc) hd]
  cases exec i s with
  | next t => exact congrArg _ (timerUpdate_eq t)
  | fault f => rfl
  | refused r => rfl

/-- Settles O16: the dispatch loads no timer, and the timer update looks at the `wait` the dispatch left, which it
keeps. -/
theorem timersTickUnlessWaiting : Obligations.TimersTickUnlessWaiting := by
  intro s t h
  obtain ⟨i, u, -, hu, -, rfl⟩ := step_completes h
  obtain ⟨-, hdt, hst, -⟩ := exec_keeps hu
  rw [timerUpdate_wait, timerUpdate_dt, timerUpdate_st, hdt, hst]
  refine ⟨fun hw => ?_, fun r hw => ?_⟩
  · rw [if_pos hw, if_pos hw]
    exact ⟨tick_toNat s.dt, tick_toNat s.st⟩
  · simp [hw]

/-! ### FX07 in its own cycle -/

theorem decode_wordRI_ldVxDt (x : Reg) : decode (wordRI 0xF x 0x07) = .ok (.ldVxDt x) :=
  (congrArg decode (wordRI_eq_formatRI 0xF x 0x07)).trans (decode_formatRI_groupF x 0x07)

/-- Settles O45: the dispatch copies DT while it still holds the old value; the timer update follows it (R130). -/
theorem delayTimerIsReadBeforeItTicks : Obligations.DelayTimerIsReadBeforeItTicks := by
  intro x s hf
  have hexec : exec (.ldVxDt x) s = .next (((s.writeV x s.dt).setPc (s.pc + 2)).setWait .running) := rfl
  refine ⟨_, by rw [step_of_decode hf (decode_wordRI_ldVxDt x), hexec, afterDispatch], ?_, ?_⟩
  · simp
  · simp [timerUpdate_dt, tick_toNat]

end Sys2Proof.Machine

/-! # Proofs about control transfer (`41_control_flow.md`)

A call and a return each leave the state but for the stack, `pc` and `wait` (`onlyStack_setStack`). The return from a
call is then the two rules `exec_call_pushes` and `exec_ret_pops` composed. -/

namespace Sys2Proof.Machine

/-! ### The words of the transfers -/

theorem encode_jp (nnn : Addr) : encode (.jp nnn) = wordA 1 nnn := (wordA_eq_formatA 1 nnn).symm

theorem encode_call (nnn : Addr) : encode (.call nnn) = wordA 2 nnn := (wordA_eq_formatA 2 nnn).symm

theorem encode_jpV0Nnn (nnn : Addr) : encode (.jpV0Nnn nnn) = wordA 0xB nnn := (wordA_eq_formatA 0xB nnn).symm

/-! ### Jumps -/

theorem exec_jp (nnn : Addr) (s : State) :
    exec (.jp nnn) s = .next ((s.setPc (zextAddr nnn)).setWait .running) := rfl

theorem exec_jpV0Nnn (nnn : Addr) (s : State) :
    exec (.jpV0Nnn nnn) s = .next ((s.setPc (jumpTarget .sum nnn (s.readV 0))).setWait .running) := rfl

/-- Settles O22: the dispatch writes `pc` and `wait` only. -/
theorem jumpLoadsTheAddress : Obligations.JumpLoadsTheAddress := fun nnn s =>
  ⟨encode_jp nnn ▸ Laws.RoundTrip.jp nnn rfl, _, exec_jp nnn s, zextAddr_toNat nnn, onlyRegisters_nil s _⟩

/-- Settles O25: the sum of a 12-bit and an 8-bit number fits `pc` (`jumpTarget_sum_toNat`), so nothing is reduced. -/
theorem offsetJumpAddsV0 : Obligations.OffsetJumpAddsV0 := fun nnn s =>
  ⟨encode_jpV0Nnn nnn ▸ Laws.RoundTrip.jpV0Nnn nnn rfl, _, exec_jpV0Nnn nnn s,
    jumpTarget_sum_toNat nnn (s.readV 0), onlyRegisters_nil s _⟩

/-! ### The frame of a call and of a return -/

/-- Nothing but the stack, `pc` and `wait` written. -/
theorem onlyStack_setStack (s : State) (entries : Vector Word 16) (sp : Fin 17) (p : Word) :
    OnlyStack s (((s.setStack entries sp).setPc p).setWait .running) :=
  ⟨fun _ _ => rfl, rfl, fun _ => rfl, fun _ => rfl, ⟨rfl, rfl, rfl⟩, rfl⟩

theorem OnlyStack.trans {s t u : State} (h : OnlyStack s t) (h' : OnlyStack t u) : OnlyStack s u := by
  obtain ⟨hv, hidx, hfb, hmem, ⟨hdt, hst, hkeys⟩, -⟩ := h
  obtain ⟨hv', hidx', hfb', hmem', ⟨hdt', hst', hkeys'⟩, hwait⟩ := h'
  exact ⟨fun r hr => (hv' r hr).trans (hv r hr), hidx'.trans hidx, fun k => (hfb' k).trans (hfb k),
    fun a => (hmem' a).trans (hmem a), ⟨hdt'.trans hdt, hst'.trans hst, hkeys'.trans hkeys⟩, hwait⟩

/-! ### Call and return -/

/-- R142, with an entry free. -/
theorem exec_call_pushes (nnn : Addr) {s : State} (h : s.sp.val < 16) :
    ∃ t, exec (.call nnn) s = .next t ∧ t.pc = zextAddr nnn ∧ t.sp.val = s.sp.val + 1 ∧
      (∀ k : Fin 16, t.readStack k = if k.val = s.sp.val then s.pc else s.readStack k) ∧ OnlyStack s t :=
  ⟨_, exec_call_of_lt nnn s h, rfl, rfl, readStack_set s s.sp.val h s.pc, onlyStack_setStack s _ _ _⟩

/-- R140, with entry `k` on top. -/
theorem exec_ret_pops {s : State} {k : Fin 16} (h : s.sp.val = k.val + 1) :
    ∃ t, exec .ret s = .next t ∧ t.pc = s.readStack k + 2 ∧ t.sp.val = k.val ∧
      (∀ j, t.readStack j = s.readStack j) ∧ OnlyStack s t := by
  have htop : s.sp.val - 1 = k.val := by omega
  refine ⟨_, exec_ret_of_pos s (by omega), ?_, htop, fun _ => rfl, onlyStack_setStack s _ _ _⟩
  simp [htop]

/-- Settles O24: the popped entry is only read, and the sum with 2 is a word's. -/
theorem returnGoesPastTheCallSite : Obligations.ReturnGoesPastTheCallSite := by
  refine fun s => ⟨Laws.RoundTrip.ret rfl, fun k hk => ?_, exec_ret_of_zero s⟩
  obtain ⟨t, ht, hpc, hsp, hentry, hframe⟩ := exec_ret_pops hk
  exact ⟨t, ht, hsp, hpc ▸ BitVec.toNat_add _ _, hentry, hframe⟩

/-- Settles O23: the return pops the entry the call pushed, and the entries below it are the ones live before. -/
theorem callPushesItsOwnAddress : Obligations.CallPushesItsOwnAddress := by
  refine fun nnn s => ⟨encode_call nnn ▸ Laws.RoundTrip.call nnn rfl, fun hs => ?_,
    fun hs => encode_call nnn ▸ exec_call_of_full nnn s hs⟩
  obtain ⟨t, ht, hpc, hsp, hentry, hframe⟩ := exec_call_pushes nnn hs
  obtain ⟨u, hu, hpc', hsp', hentry', hframe'⟩ := exec_ret_pops (k := ⟨s.sp.val, hs⟩) hsp
  refine ⟨t, ht, hpc ▸ zextAddr_toNat nnn, hsp, hentry, hframe, u, hu, ?_, Fin.ext hsp', fun k hk => ?_,
    hframe.trans hframe'⟩
  · rw [hpc', hentry, if_pos rfl]
  · rw [hentry', hentry, if_neg hk.ne]

end Sys2Proof.Machine

/-! # Proofs about the skips (`42_skip.md`)

The four differ in their condition only, so the law of R154 is proved once (`skipWhen_advances`), for any test that
decides the condition. -/

namespace Sys2Proof.Machine

/-! ### The words of the skips -/

theorem encode_seVxNn (x : Reg) (nn : Byte) : encode (.seVxNn x nn) = wordRI 3 x nn.toNat :=
  (wordRI_eq_formatRI 3 x nn).symm

theorem encode_sneVxNn (x : Reg) (nn : Byte) : encode (.sneVxNn x nn) = wordRI 4 x nn.toNat :=
  (wordRI_eq_formatRI 4 x nn).symm

theorem encode_seVxVy (x y : Reg) : encode (.seVxVy x y) = wordRR 5 x y 0 :=
  (wordRR_eq_formatRR 5 x y (by decide)).symm

theorem encode_sneVxVy (x y : Reg) : encode (.sneVxVy x y) = wordRR 9 x y 0 :=
  (wordRR_eq_formatRR 9 x y (by decide)).symm

/-! ### The law of the four skips -/

theorem skipWhen_advances (s : State) {c : Bool} {p : Prop} [Decidable p] (h : c = true ↔ p) :
    ∃ t, skipWhen c s = .next t ∧ OnlyRegisters [] s t ∧ t.pc = if p then s.pc + 4 else s.pc + 2 :=
  ⟨_, rfl, onlyRegisters_nil s _, if_congr h rfl rfl⟩

/-- Settles O27: each skip is `skipWhen` at a test that decides its condition. -/
theorem skipsAdvanceByFourOrTwo : Obligations.SkipsAdvanceByFourOrTwo := by
  refine fun x y nn s => ⟨?_, ?_, ?_, ?_, ?_, ?_, ?_, ?_⟩
  · exact encode_seVxNn x nn ▸ Laws.RoundTrip.seVxNn x nn rfl
  · exact encode_sneVxNn x nn ▸ Laws.RoundTrip.sneVxNn x nn rfl
  · exact encode_seVxVy x y ▸ Laws.RoundTrip.seVxVy x y rfl
  · exact encode_sneVxVy x y ▸ Laws.RoundTrip.sneVxVy x y rfl
  · exact skipWhen_advances s beq_iff_eq
  · exact skipWhen_advances s bne_iff_ne
  · exact skipWhen_advances s beq_iff_eq
  · exact skipWhen_advances s bne_iff_ne

end Sys2Proof.Machine

/-! # Proofs about the loads and the immediate add (`43_load_add.md`)

6XNN and 7XNN write one general register and go on to the next instruction, so what such a dispatch leaves is proved
once (`finish_writeV_leaves`), for any byte written. -/

namespace Sys2Proof.Machine

/-! ### The words of the loads and the add -/

theorem encode_ldVxNn (x : Reg) (nn : Byte) : encode (.ldVxNn x nn) = wordRI 6 x nn.toNat :=
  (wordRI_eq_formatRI 6 x nn).symm

theorem encode_addVxNn (x : Reg) (nn : Byte) : encode (.addVxNn x nn) = wordRI 7 x nn.toNat :=
  (wordRI_eq_formatRI 7 x nn).symm

theorem encode_ldINnn (nnn : Addr) : encode (.ldINnn nnn) = wordA 0xA nnn := (wordA_eq_formatA 0xA nnn).symm

/-! ### One general register written -/

theorem exec_ldVxNn (x : Reg) (nn : Byte) (s : State) :
    exec (.ldVxNn x nn) s = finish (s.pc + 2) (s.writeV x nn) := rfl

theorem exec_addVxNn (x : Reg) (nn : Byte) (s : State) :
    exec (.addVxNn x nn) s = finish (s.pc + 2) (s.writeV x (s.readV x + nn)) := rfl

/-- A dispatch that writes one general register and goes on to the next instruction (R23, R123). -/
theorem finish_writeV_leaves (s : State) (x : Reg) (b : Byte) :
    ∃ t, finish (s.pc + 2) (s.writeV x b) = .next t ∧ t.readV x = b ∧ t.pc = s.pc + 2 ∧ OnlyRegisters [x] s t :=
  ⟨_, rfl, readV_writeV_same s x b, rfl, onlyRegisters_one s x b _⟩

/-- Settles O28: the dispatch writes NN to the one register. -/
theorem loadImmediateSetsTheRegister : Obligations.LoadImmediateSetsTheRegister := fun x nn s =>
  ⟨encode_ldVxNn x nn ▸ Laws.RoundTrip.ldVxNn x nn rfl, exec_ldVxNn x nn s ▸ finish_writeV_leaves s x nn⟩

/-- Settles O29: the dispatch writes the 8-bit sum to the one register, so VF is written only when it is that one. -/
theorem addImmediateWrapsWithoutFlag : Obligations.AddImmediateWrapsWithoutFlag := by
  refine fun x nn s => ⟨encode_addVxNn x nn ▸ Laws.RoundTrip.addVxNn x nn rfl, ?_⟩
  obtain ⟨t, ht, hx, hpc, hframe⟩ := finish_writeV_leaves s x (s.readV x + nn)
  exact ⟨t, (exec_addVxNn x nn s).trans ht, hx ▸ BitVec.toNat_add _ _, hpc, hframe⟩

/-! ### The index register written -/

theorem exec_ldINnn (nnn : Addr) (s : State) :
    exec (.ldINnn nnn) s = .next (((s.setIdx (zextAddr nnn)).setPc (s.pc + 2)).setWait .running) := rfl

/-- Nothing but the index register, `pc` and `wait` written. -/
theorem onlyIndex_setIdx (s : State) (w p : Word) : OnlyIndex s (((s.setIdx w).setPc p).setWait .running) :=
  ⟨fun _ _ => rfl, ⟨rfl, fun _ => rfl⟩, fun _ => rfl, fun _ => rfl, ⟨rfl, rfl, rfl⟩, rfl⟩

/-- Settles O30: the dispatch writes the 12-bit address, extended with zeros, to the index register. -/
theorem loadIndexZeroExtends : Obligations.LoadIndexZeroExtends := fun nnn s =>
  ⟨encode_ldINnn nnn ▸ Laws.RoundTrip.ldINnn nnn rfl, _, exec_ldINnn nnn s, zextAddr_toNat nnn, rfl,
    onlyIndex_setIdx s _ _⟩

end Sys2Proof.Machine

/-! # Proofs about arithmetic and logic (`44_alu.md`)

What a dispatch of each shape leaves is proved once, for any byte: one register written (`finish_writeV_leaves`),
a result and then its flag (`finish_writeV_flag_leaves`), a flag and then a byte shifted in place and copied
(`finish_shiftVia_leaves`), a flag and then a difference that reads it (`finish_subAfterFlag_leaves`). The aliased forms
(X or Y = 15) are decided there, by the order of the writes (R180). -/

namespace Sys2Proof.Machine

/-! ### The words of group 8 -/

theorem decode_wordRR_group8 (x y : Reg) {n : Nat} (hn : n < 16) :
    decode (wordRR 8 x y n) = decodeGroup8 (BitVec.ofNat 4 n) x y :=
  (congrArg decode (wordRR_eq_formatRR 8 x y hn)).trans (decode_formatRR_group8 x y _)

/-! ### The move and the bitwise operations -/

theorem exec_ldVxVy (x y : Reg) (s : State) :
    exec (.ldVxVy x y) s = finish (s.pc + 2) (s.writeV x (s.readV y)) := rfl

theorem exec_or (x y : Reg) (s : State) :
    exec (.or x y) s = finish (s.pc + 2) (s.writeV x (s.readV x ||| s.readV y)) := rfl

theorem exec_and (x y : Reg) (s : State) :
    exec (.and x y) s = finish (s.pc + 2) (s.writeV x (s.readV x &&& s.readV y)) := rfl

theorem exec_xor (x y : Reg) (s : State) :
    exec (.xor x y) s = finish (s.pc + 2) (s.writeV x (s.readV x ^^^ s.readV y)) := rfl

/-- Settles O31: the dispatch writes `V[Y]` to the one register. -/
theorem moveCopiesTheRegister : Obligations.MoveCopiesTheRegister := fun x y s =>
  ⟨decode_wordRR_group8 x y (by decide), exec_ldVxVy x y s ▸ finish_writeV_leaves s x (s.readV y)⟩

/-- A dispatch that writes one general register, the byte written said bit by bit. -/
theorem finish_writeV_leaves_bits (s : State) (x : Reg) (b : Byte) {bit : Nat → Bool}
    (hb : ∀ k, b.getLsbD k = bit k) :
    ∃ t, finish (s.pc + 2) (s.writeV x b) = .next t ∧ t.pc = s.pc + 2 ∧ OnlyRegisters [x] s t ∧
      ∀ k, k < 8 → (t.readV x).getLsbD k = bit k := by
  obtain ⟨t, ht, hx, hpc, hframe⟩ := finish_writeV_leaves s x b
  exact ⟨t, ht, hpc, hframe, fun k _ => hx ▸ hb k⟩

/-- Settles O32: each operation writes one register, whose bits are those of the operands combined. -/
theorem bitwiseOperationsActBitByBit : Obligations.BitwiseOperationsActBitByBit := by
  refine fun x y s => ⟨decode_wordRR_group8 x y (by decide), decode_wordRR_group8 x y (by decide),
    decode_wordRR_group8 x y (by decide), ?_, ?_, ?_⟩
  · exact exec_or x y s ▸ finish_writeV_leaves_bits s x _ (fun _ => BitVec.getLsbD_or)
  · exact exec_and x y s ▸ finish_writeV_leaves_bits s x _ (fun _ => BitVec.getLsbD_and)
  · exact exec_xor x y s ▸ finish_writeV_leaves_bits s x _ (fun _ => BitVec.getLsbD_xor)

/-! ### The values of the flags and of a byte's arithmetic -/

theorem flagOf_decide (p : Prop) [Decidable p] : flagOf (decide p) = if p then 1 else 0 :=
  if_congr decide_eq_true_iff rfl rfl

theorem greaterFlag_toNat (a b : Byte) : (greaterFlag a b).toNat = if b.toNat < a.toNat then 1 else 0 := by
  rw [greaterFlag, flagOf_decide, apply_ite BitVec.toNat]
  rfl

theorem shiftRightFlag_toNat (b : Byte) : (shiftRightFlag b).toNat = b.toNat % 2 :=
  (BitVec.toNat_and b 0x01).trans (Nat.and_one_is_mod b.toNat)

/-- The mask 0x80 leaves the top bit where it is (U1). -/
theorem shiftLeftFlag_eq (b : Byte) : shiftLeftFlag b = if 128 ≤ b.toNat then 0x80 else 0x00 := by
  have hmsb : b.getLsbD 7 = decide (128 ≤ b.toNat) := BitVec.msb_eq_decide b
  have hmask : shiftLeftFlag b = if b.getLsbD 7 then 0x80 else 0x00 := BitVec.and_twoPow b 7
  rw [hmask, hmsb]
  exact if_congr decide_eq_true_iff rfl rfl

/-- The difference modulo 256, the minuend raised by 256 so that the subtraction of numbers does not cut off. -/
theorem byte_sub_toNat (a b : Byte) : (a - b).toNat = (256 + a.toNat - b.toNat) % 256 := by
  have := b.isLt
  rw [BitVec.toNat_sub]
  omega

theorem byte_shiftRight_toNat (b : Byte) : (b >>> 1).toNat = b.toNat / 2 := BitVec.toNat_ushiftRight b 1

theorem byte_shiftLeft_toNat (b : Byte) : (b <<< 1).toNat = 2 * b.toNat % 256 := by
  rw [BitVec.toNat_shiftLeft, Nat.shiftLeft_eq]
  omega

/-- Shifting the flag of 8XY6 as its own operand (Y = 15) drops its only bit. -/
theorem shiftRightFlag_shiftRight (b : Byte) : shiftRightFlag b >>> 1 = 0 := by
  apply BitVec.eq_of_toNat_eq
  rw [byte_shiftRight_toNat, shiftRightFlag_toNat]
  show _ = 0
  omega

/-- Shifting the flag of 8XYE as its own operand (Y = 15) drops its only bit. -/
theorem shiftLeftFlag_shiftLeft (b : Byte) : shiftLeftFlag b <<< 1 = 0 := by
  rw [shiftLeftFlag_eq]
  split <;> rfl

/-! ### A result, then its flag: 8XY4 and 8XY5 -/

theorem exec_addVxVy (x y : Reg) (s : State) :
    exec (.addVxVy x y) s = finish (s.pc + 2)
      ((s.writeV x (s.readV x + s.readV y)).writeV vf (carryFlag (s.readV x) (s.readV y))) := rfl

theorem exec_sub (x y : Reg) (s : State) :
    exec (.sub x y) s = finish (s.pc + 2)
      ((s.writeV x (s.readV x - s.readV y)).writeV vf (noBorrowFlag (s.readV x) (s.readV y))) := rfl

/-- VF is written last, so it always ends as the flag and the result is lost when X = 15 (D4). -/
theorem finish_writeV_flag_leaves (s : State) (x : Reg) (b flag : Byte) :
    ∃ t, finish (s.pc + 2) ((s.writeV x b).writeV vf flag) = .next t ∧ t.readV vf = flag ∧
      (x ≠ vf → t.readV x = b) ∧ t.pc = s.pc + 2 ∧ OnlyRegisters [x, vf] s t := by
  refine ⟨_, rfl, readV_writeV_same _ vf flag, fun hx => ?_, rfl, onlyRegisters_two s x vf b flag _⟩
  simp [hx]

/-- Settles O33: the result is the 8-bit sum, and the flag its carry. -/
theorem addSetsTheCarryFlag : Obligations.AddSetsTheCarryFlag := by
  refine fun x y s => ⟨decode_wordRR_group8 x y (by decide), ?_⟩
  obtain ⟨t, ht, hflag, hx, hpc, hframe⟩ :=
    finish_writeV_flag_leaves s x (s.readV x + s.readV y) (carryFlag (s.readV x) (s.readV y))
  exact ⟨t, (exec_addVxVy x y s).trans ht, hflag.trans (flagOf_decide _),
    fun h => hx h ▸ BitVec.toNat_add _ _, hpc, hframe⟩

/-- Settles O34: the result is the 8-bit difference, and the flag tells that nothing was borrowed. -/
theorem subSetsTheNoBorrowFlag : Obligations.SubSetsTheNoBorrowFlag := by
  refine fun x y s => ⟨decode_wordRR_group8 x y (by decide), ?_⟩
  obtain ⟨t, ht, hflag, hx, hpc, hframe⟩ :=
    finish_writeV_flag_leaves s x (s.readV x - s.readV y) (noBorrowFlag (s.readV x) (s.readV y))
  exact ⟨t, (exec_sub x y s).trans ht, hflag.trans (flagOf_decide _),
    fun h => hx h ▸ byte_sub_toNat _ _, hpc, hframe⟩

/-! ### The flag, then a result: 8XY7 -/

/-- A dispatch that changed nothing but general registers before it ended. -/
theorem WritesOnly.onlyRegisters {ws : List Reg} {s u : State} (h : WritesOnly ws s u) (p : Word) :
    OnlyRegisters ws s ((u.setPc p).setWait .running) :=
  onlyRegisters_of_v ws p h.1 h.2

/-- The registers' part of 8XY7: the flag into VF, then the difference of the registers as that leaves them. -/
def subAfterFlag (flag : Byte) (x y : Reg) (s : State) : State :=
  let s1 := s.writeV vf flag
  s1.writeV x (s1.readV y - s1.readV x)

theorem exec_subn (x y : Reg) (s : State) :
    exec (.subn x y) s = finish (s.pc + 2) (subAfterFlag (greaterFlag (s.readV y) (s.readV x)) x y s) := rfl

/-- VF holds the flag when the operands are read, so an operand that is VF is the flag; VF keeps it unless X = 15, when
the difference replaces it (D4). -/
theorem finish_subAfterFlag_leaves (flag : Byte) (x y : Reg) (s : State) :
    ∃ t, finish (s.pc + 2) (subAfterFlag flag x y s) = .next t ∧ (x ≠ vf → t.readV vf = flag) ∧
      t.readV x = (if y = vf then flag else s.readV y) - (if x = vf then flag else s.readV x) ∧
      t.pc = s.pc + 2 ∧ OnlyRegisters [x, vf] s t := by
  have hwrites : WritesOnly [x, vf] s (subAfterFlag flag x y s) :=
    ((WritesOnly.refl _ s).writeV (by simp) flag).writeV (by simp) _
  refine ⟨_, rfl, fun hx => ?_, ?_, rfl, hwrites.onlyRegisters _⟩
  · simp [subAfterFlag, hx.symm]
  · simp [subAfterFlag, readV_writeV]

/-- Settles O36: the four aliasing cases decide which operands are the flag. -/
theorem reverseSubtractFlagsFirst : Obligations.ReverseSubtractFlagsFirst := by
  refine fun x y s => ⟨decode_wordRR_group8 x y (by decide), ?_⟩
  obtain ⟨t, ht, hflag, hdiff, hpc, hframe⟩ :=
    finish_subAfterFlag_leaves (greaterFlag (s.readV y) (s.readV x)) x y s
  refine ⟨t, (exec_subn x y s).trans ht, fun hx => ?_, fun hx hy => ?_, fun hx hy => ?_, fun hx hy => ?_,
    fun hx hy => ?_, hpc, hframe⟩
  · rw [hflag hx, greaterFlag_toNat]
  · rw [hdiff, if_neg hy, if_neg hx, byte_sub_toNat]
  · rw [hdiff, if_neg hy, if_pos hx, byte_sub_toNat, greaterFlag_toNat]
  · rw [hdiff, if_pos hy, if_neg hx, byte_sub_toNat, greaterFlag_toNat]
  · rw [hdiff, if_pos hy, if_pos hx]
    exact BitVec.sub_self _

/-! ### The flag, then a byte shifted in place and copied: 8XY6 and 8XYE -/

/-- The registers' part of both shifts: the flag into VF, `V[y]` replaced by its shift, and that copied to `V[x]`. -/
def shiftVia (shift : Byte → Byte) (flag : Byte) (x y : Reg) (s : State) : State :=
  let s1 := s.writeV vf flag
  let s2 := s1.writeV y (shift (s1.readV y))
  s2.writeV x (s2.readV y)

theorem exec_shr (x y : Reg) (s : State) :
    exec (.shr x y) s = finish (s.pc + 2) (shiftVia (· >>> 1) (shiftRightFlag (s.readV y)) x y s) := rfl

theorem exec_shl (x y : Reg) (s : State) :
    exec (.shl x y) s = finish (s.pc + 2) (shiftVia (· <<< 1) (shiftLeftFlag (s.readV y)) x y s) := rfl

/-- Each register after a shift: the byte shifted is the flag when Y = 15, and VF ends as the flag only when it is
neither X nor Y. -/
theorem readV_shiftVia (shift : Byte → Byte) (flag : Byte) (x y r : Reg) (s : State) :
    (shiftVia shift flag x y s).readV r =
      if r = x ∨ r = y then shift (if y = vf then flag else s.readV y) else if r = vf then flag else s.readV r := by
  by_cases hx : r = x
  · simp [shiftVia, readV_writeV, hx]
  · by_cases hy : r = y
    · simp [shiftVia, readV_writeV, hy]
    · simp [shiftVia, readV_writeV, hx, hy]

/-- What a shift leaves, by whether its operand is VF (D4). -/
theorem finish_shiftVia_leaves (shift : Byte → Byte) (flag : Byte) (x y : Reg) (s : State) :
    ∃ t, finish (s.pc + 2) (shiftVia shift flag x y s) = .next t ∧
      (y ≠ vf → t.readV y = shift (s.readV y) ∧ t.readV x = shift (s.readV y)) ∧
      (y ≠ vf → x ≠ vf → t.readV vf = flag) ∧
      (y = vf → t.readV x = shift flag ∧ t.readV vf = shift flag) ∧
      t.pc = s.pc + 2 ∧ OnlyRegisters [x, y, vf] s t := by
  have hwrites : WritesOnly [x, y, vf] s (shiftVia shift flag x y s) :=
    (((WritesOnly.refl _ s).writeV (by simp) flag).writeV (by simp) _).writeV (by simp) _
  have hread := fun r => readV_shiftVia shift flag x y r s
  refine ⟨_, rfl, fun hy => ⟨?_, ?_⟩, fun hy hx => ?_, fun hy => ⟨?_, ?_⟩, rfl, hwrites.onlyRegisters _⟩
  · exact (hread y).trans (by simp [hy])
  · exact (hread x).trans (by simp [hy])
  · exact (hread vf).trans (by simp [hx.symm, hy.symm])
  · exact (hread x).trans (by simp [hy])
  · exact (hread vf).trans (by simp [hy])

/-- Settles O35: a right shift by 1 halves, and the bit it drops is the flag; the flag shifted is 0. -/
theorem shiftRightHalvesIntoBothRegisters : Obligations.ShiftRightHalvesIntoBothRegisters := by
  refine fun x y s => ⟨decode_wordRR_group8 x y (by decide), ?_⟩
  obtain ⟨t, ht, hboth, hflag, hvf, hpc, hframe⟩ :=
    finish_shiftVia_leaves (· >>> 1) (shiftRightFlag (s.readV y)) x y s
  refine ⟨t, (exec_shr x y s).trans ht, fun hy => ?_, fun hy hx => ?_, fun hy => ?_, hpc, hframe⟩
  · rw [(hboth hy).1, (hboth hy).2]
    exact ⟨byte_shiftRight_toNat _, byte_shiftRight_toNat _⟩
  · rw [hflag hy hx, shiftRightFlag_toNat]
  · rw [(hvf hy).1, (hvf hy).2]
    exact ⟨shiftRightFlag_shiftRight _, shiftRightFlag_shiftRight _⟩

/-- Settles O37: a left shift by 1 doubles, and the flag is the top bit in place; the flag shifted is 0. -/
theorem shiftLeftDoublesIntoBothRegisters : Obligations.ShiftLeftDoublesIntoBothRegisters := by
  refine fun x y s => ⟨decode_wordRR_group8 x y (by decide), ?_⟩
  obtain ⟨t, ht, hboth, hflag, hvf, hpc, hframe⟩ :=
    finish_shiftVia_leaves (· <<< 1) (shiftLeftFlag (s.readV y)) x y s
  refine ⟨t, (exec_shl x y s).trans ht, fun hy => ?_, fun hy hx => ?_, fun hy => ?_, hpc, hframe⟩
  · rw [(hboth hy).1, (hboth hy).2]
    exact ⟨byte_shiftLeft_toNat _, byte_shiftLeft_toNat _⟩
  · rw [hflag hy hx, shiftLeftFlag_eq]
  · rw [(hvf hy).1, (hvf hy).2]
    exact ⟨shiftLeftFlag_shiftLeft _, shiftLeftFlag_shiftLeft _⟩

end Sys2Proof.Machine

/-! # Proofs about the display (`45_display.md`)

The laws of `drawSprite` say where each pixel goes through `drawTarget`, for either edge policy; here the two policies'
targets are put in. The second draw of a sprite is the first's statement again (`drawOverwritesItsRectangle`), from a
state that places and reads the sprite alike. The policies agree inside the grid because the draws are the same pixel
writes (`drawPixels_congr`). -/

namespace Sys2Proof.Machine

/-! ### The frame of a draw and of a clear -/

/-- A completed dispatch that writes neither the index register nor the stack, and does not wait for a key. -/
theorem onlyScreen_of_exec {i : Instr} {s t : State} (h : exec i s = .next t) (hidx : ∀ nnn, i ≠ .ldINnn nnn)
    (hret : i ≠ .ret) (hcall : ∀ nnn, i ≠ .call nnn) (hwait : t.wait = .running) : OnlyScreen (mayWriteV i) s t := by
  have hc := exec_completes h
  obtain ⟨hmem, htimersAndKeys⟩ := exec_keeps h
  exact ⟨hc.keepsV, hc.idx_eq hidx, hc.keepsStack hret hcall, fun a => by rw [hmem], htimersAndKeys, hwait⟩

theorem exec_cls (s : State) : exec .cls s = .next (((s.setFb []).setPc (s.pc + 2)).setWait .running) := rfl

/-- Settles O38: the clear leaves no entry listed, whatever was on before it. -/
theorem clearDisplayTurnsEveryPixelOff : Obligations.ClearDisplayTurnsEveryPixelOff := fun s =>
  ⟨Laws.RoundTrip.cls rfl, _, exec_cls s, on_nil, rfl, onlyScreen_of_exec (exec_cls s) nofun nofun nofun rfl,
    _, exec_cls _, fun _ => rfl⟩

/-! ### The draw faults -/

theorem encode_drw (x y : Reg) {n : Nat} (hn : n ≤ 15) : encode (.drw x y n) = wordRR 0xD x y n :=
  (wordRR_eq_formatRR 0xD x y (by omega)).symm

/-- Settles O39: the address check is the first thing the draw does. -/
theorem drawPastMemoryFaults : Obligations.DrawPastMemoryFaults := by
  intro x y n s hn hpos hout
  rw [exec_drw_of_outside x y n s (by omega) (by omega), encode_drw x y hn]

/-! ### The draw -/

theorem decode_wordRR_drw (x y : Reg) {n : Nat} (hn : n ≤ 15) : decode (wordRR 0xD x y n) = .ok (.drw x y n) :=
  encode_drw x y hn ▸ Laws.RoundTrip.drw x y n (decide_eq_true (by omega))

theorem readV_vf_drawSprite_eq_zero_or_one (edge : DrawEdge) (x y : Reg) (n : Nat) (s : State) :
    (drawSprite edge x y n s).readV vf = 0 ∨ (drawSprite edge x y n s).readV vf = 1 := by
  have hflag : ∀ b : Bool, collisionFlag b = 0 ∨ collisionFlag b = 1 := by decide
  rw [drawSprite_eq, readV_writeV_same]
  exact hflag _

/-- Settles O40: the laws of `drawSprite` where each pixel's target is its entry under `wrap`. -/
theorem drawOverwritesItsRectangle : Obligations.DrawOverwritesItsRectangle := by
  intro x y n s hn hin
  have hexec := exec_drw_of_inside x y n s (by omega)
  refine ⟨decode_wordRR_drw x y hn, _, hexec, fun row col hr hc => ?_, fun k hk => ?_, ?_, ?_, rfl,
    onlyScreen_of_exec hexec nofun nofun nofun rfl⟩
  · exact drawSprite_on_target hn hr hc (drawTarget_wrap x y s row col)
  · refine drawSprite_on_other fun row col hr hc ht => hk row col hr hc ?_
    exact (Option.some.inj ((drawTarget_wrap x y s row col).symm.trans ht)).symm
  · refine (drawSprite_vf hn).trans ?_
    simp only [drawEdge, drawTarget_wrap, Option.some.injEq, exists_and_left, exists_eq_left']
  · exact readV_vf_drawSprite_eq_zero_or_one drawEdge x y n s

/-! ### The same sprite drawn again -/

/-- R195: the coordinates are read when VF has been reset, so a draw does not see what VF held. -/
theorem wrapEntry_of_keepsV {s t : State} (h : KeepsV [vf] s t) (x y : Reg) (row col : Nat) :
    wrapEntry t x y row col = wrapEntry s x y row col := by
  have horigin : ∀ r, drawOrigin t r = drawOrigin s r := by
    intro r
    unfold drawOrigin
    split
    next => rfl
    next hr => rw [h r (by simpa using hr)]
  rw [wrapEntry, horigin, horigin, wrapEntry]

theorem spriteAt_of_keepsMemory {s t : State} (hidx : t.idx = s.idx) (hmem : KeepsMemory s t) (row col : Nat) :
    spriteAt t row col = spriteAt s row col := by
  rw [spriteAt, hidx, hmem, spriteAt]

/-- Settles O41: the first draw keeps what places and feeds the second, which therefore overwrites the same rectangle
with the bits that stand in it. -/
theorem drawingTwiceKeepsTheSprite : Obligations.DrawingTwiceKeepsTheSprite := by
  intro x y n s hn hin
  obtain ⟨-, t, ht, hrect, -, -, -, -, hv, hidx, -, hmem, -⟩ := drawOverwritesItsRectangle x y n s hn hin
  obtain ⟨-, u, hu, hrect', hother', hvf', -⟩ := drawOverwritesItsRectangle x y n t hn (hidx ▸ hin)
  simp only [wrapEntry_of_keepsV hv, spriteAt_of_keepsMemory hidx hmem] at hrect' hother' hvf'
  refine ⟨t, u, ht, hu, fun k => ?_, hvf'.trans ?_⟩
  · by_cases hk : ∃ row col, row < n ∧ col < 8 ∧ k = wrapEntry s x y row col
    · obtain ⟨row, col, hr, hc, rfl⟩ := hk
      rw [hrect' row col hr hc, hrect row col hr hc]
    · exact hother' k fun row col hr hc e => hk ⟨row, col, hr, hc, e⟩
  · constructor
    · rintro ⟨row, col, hr, hc, hbit, -⟩
      exact ⟨row, col, hr, hc, hbit⟩
    · rintro ⟨row, col, hr, hc, hbit⟩
      exact ⟨row, col, hr, hc, hbit, (hrect row col hr hc).trans hbit⟩

/-! ### The edge policy -/

theorem spritePixels_congr {e e' : DrawEdge} {x0 y0 : Byte} {row : Nat} {bs : List Byte}
    (h : ∀ r col, r < bs.length → col < 8 → pixelTarget e x0 y0 (row + r) col = pixelTarget e' x0 y0 (row + r) col) :
    spritePixels e x0 y0 row bs = spritePixels e' x0 y0 row bs := by
  induction bs generalizing row with
  | nil => rfl
  | cons b bs ih =>
    rw [spritePixels, spritePixels]
    congr 1
    · refine List.map_congr_left fun col hcol => ?_
      exact congrArg (·, spriteBit b col) (h 0 col (by simp) (List.mem_range.1 hcol))
    · refine ih fun r col hr hcol => ?_
      rw [Nat.add_assoc, Nat.add_comm 1]
      exact h (r + 1) col (by simpa using hr) hcol

/-- Two policies that place each pixel of a sprite alike give the same pixel writes. -/
theorem drawPixels_congr {e e' : DrawEdge} {x y : Reg} {n : Nat} {s : State}
    (h : ∀ row col, row < n → col < 8 → drawTarget e x y s row col = drawTarget e' x y s row col) :
    drawPixels e x y n s = drawPixels e' x y n s := by
  refine spritePixels_congr fun r col hr hcol => ?_
  rw [Nat.zero_add]
  exact h r col (by simpa using hr) hcol

/-- Settles O42: no pixel of the sprite is dropped, so the two draws are the same pixel writes. -/
theorem edgePolicyIsUnseenInsideTheGrid : Obligations.EdgePolicyIsUnseenInsideTheGrid := by
  intro x y n s hx hy
  have hpixels : drawPixels .clip x y n s = drawPixels .wrap x y n s := by
    refine drawPixels_congr fun row col hr hc => ?_
    rw [drawTarget_clip, drawTarget_wrap, if_pos (by omega)]
  rw [drawSprite_eq, drawSprite_eq, hpixels]

theorem drawTarget_clip_eq_some {x y : Reg} {s : State} {row col k : Nat} :
    drawTarget .clip x y s row col = some k ↔
      drawOrigin s x + col ≤ 63 ∧ drawOrigin s y + row ≤ 31 ∧ wrapEntry s x y row col = k := by
  rw [drawTarget_clip, Option.ite_none_right_eq_some, Option.some.injEq, and_assoc]

/-- Settles O43: the laws of `drawSprite` where a pixel on the grid has its entry under `wrap`, and the others none. -/
theorem clipDropsPixelsOffTheGrid : Obligations.ClipDropsPixelsOffTheGrid := by
  intro x y n s hn
  refine ⟨fun row col hr hc hcol hrow => ?_, fun k hk => ?_, (drawSprite_vf hn).trans ?_⟩
  · exact drawSprite_on_target hn hr hc (drawTarget_clip_eq_some.2 ⟨hcol, hrow, rfl⟩)
  · refine drawSprite_on_other fun row col hr hc ht => ?_
    obtain ⟨hcol, hrow, he⟩ := drawTarget_clip_eq_some.1 ht
    exact hk row col hr hc hcol hrow he.symm
  · simp only [drawTarget_clip_eq_some]
    constructor
    · rintro ⟨row, col, _, hr, hc, ⟨hcol, hrow, rfl⟩, hbit, hon⟩
      exact ⟨row, col, hr, hc, hcol, hrow, hbit, hon⟩
    · rintro ⟨row, col, hr, hc, hcol, hrow, hbit, hon⟩
      exact ⟨row, col, _, hr, hc, ⟨hcol, hrow, rfl⟩, hbit, hon⟩

end Sys2Proof.Machine

/-! # Proofs about the timer read and the key wait (`46_timer_key.md`)

What FX0A does is said in the two cases of the keys, at the dispatch (`exec_ldVxK_waits`, `exec_ldVxK_stores`) and at
the step (`step_ldVxK_waits`, `step_ldVxK_stores`). A wait leaves the word at `pc` and the keys as they were, so the
next cycle waits again (`run_ldVxK_waits`). -/

namespace Sys2Proof.Machine

/-! ### The delay timer read -/

theorem exec_ldVxDt (x : Reg) (s : State) : exec (.ldVxDt x) s = finish (s.pc + 2) (s.writeV x s.dt) := rfl

/-- Settles O44: the dispatch writes the delay timer to the one register. -/
theorem readDelayTimerCopiesDT : Obligations.ReadDelayTimerCopiesDT := fun x s =>
  ⟨decode_wordRI_ldVxDt x, exec_ldVxDt x s ▸ finish_writeV_leaves s x s.dt⟩

/-! ### The dispatch of the key wait -/

theorem decode_wordRI_ldVxK (x : Reg) : decode (wordRI 0xF x 0x0A) = .ok (.ldVxK x) :=
  (congrArg decode (wordRI_eq_formatRI 0xF x 0x0A)).trans (decode_formatRI_groupF x 0x0A)

theorem exists_lowestKeyDown {s : State} (h : ¬ NoKeyDown s) : ∃ k, LowestKeyDown s k := by
  have hscan : lowestKey s.keys ≠ none := mt (lowestKey_eq_none s.keys).1 h
  obtain ⟨k, hk⟩ := Option.ne_none_iff_exists'.1 hscan
  exact ⟨k, (lowestKey_eq_some s.keys k).1 hk⟩

theorem exec_ldVxK_waits (x : Reg) {s : State} (h : NoKeyDown s) :
    exec (.ldVxK x) s = .next (s.setWait (.awaitingKey x)) :=
  exec_ldVxK_of_none x s ((lowestKey_eq_none s.keys).2 h)

theorem exec_ldVxK_stores (x : Reg) {s : State} {k : Fin 16} (h : LowestKeyDown s k) :
    ∃ t, exec (.ldVxK x) s = .next t ∧ (t.readV x).toNat = k.val ∧ t.pc = s.pc + 2 ∧ OnlyRegisters [x] s t := by
  obtain ⟨t, ht, hx, hpc, hframe⟩ := finish_writeV_leaves s x (BitVec.ofNat 8 k.val)
  refine ⟨t, (exec_ldVxK_of_some x s k ((lowestKey_eq_some s.keys k).2 h)).trans ht, ?_, hpc, hframe⟩
  rw [hx, BitVec.toNat_ofNat, Nat.mod_eq_of_lt (by omega)]

/-- Settles O46: the scan finds the lowest key that is down, or none, and the dispatch goes by what it finds. -/
theorem keyWaitStoresTheLowestKey : Obligations.KeyWaitStoresTheLowestKey := fun x _ =>
  ⟨decode_wordRI_ldVxK x, exec_ldVxK_waits x, fun _ => exec_ldVxK_stores x⟩

/-! ### The cycles of the key wait -/

theorem OnlyRegisters.wait_eq {ws : List Reg} {s t : State} (h : OnlyRegisters ws s t) : t.wait = .running := by
  obtain ⟨-, -, -, -, -, -, hwait⟩ := h
  exact hwait

/-- A cycle that waits leaves the timers too: it ends with `wait` at AwaitingKey (R128). -/
theorem step_ldVxK_waits {x : Reg} {s : State} (hf : fetch s = .ok (wordRI 0xF x 0x0A)) (h : NoKeyDown s) :
    step s = .next (s.setWait (.awaitingKey x)) := by
  rw [step_of_decode hf (decode_wordRI_ldVxK x), exec_ldVxK_waits x h]
  rfl

theorem step_ldVxK_stores {x : Reg} {s : State} {k : Fin 16} (hf : fetch s = .ok (wordRI 0xF x 0x0A))
    (h : LowestKeyDown s k) :
    ∃ t, step s = .next t ∧ (t.readV x).toNat = k.val ∧ t.pc = s.pc + 2 ∧ t.wait = .running := by
  obtain ⟨u, hu, hx, hpc, hframe⟩ := exec_ldVxK_stores x h
  refine ⟨timerUpdate u, ?_, ?_, ?_, ?_⟩
  · rw [step_of_decode hf (decode_wordRI_ldVxK x), hu, afterDispatch]
  · rw [readV_timerUpdate, hx]
  · rw [timerUpdate_pc, hpc]
  · rw [timerUpdate_wait, hframe.wait_eq]

theorem run_ldVxK_waits {x : Reg} (n : Nat) {s : State} (hf : fetch s = .ok (wordRI 0xF x 0x0A)) (h : NoKeyDown s) :
    Host.Core.run Sys2Proof.core (n + 1) s =
      (.next (s.setWait (.awaitingKey x)) : Host.Outcome State Fault Refusal) := by
  induction n generalizing s with
  | zero => exact run_succ_of_next Sys2Proof.core 0 (step_ldVxK_waits hf h)
  | succ n ih => exact (run_succ_of_next Sys2Proof.core (n + 1) (step_ldVxK_waits hf h)).trans (ih hf h)

/-- Settles O47: a wait is again a state that waits, and the cycle that finds a key ends Running, so its timers tick
(C5). -/
theorem keyWaitPollsUntilAKeyIsDown : Obligations.KeyWaitPollsUntilAKeyIsDown := by
  refine fun x s hf hno => ⟨fun n => run_ldVxK_waits n hf hno, fun keys k hk => ?_⟩
  have hf' : fetch ((s.setWait (.awaitingKey x)).withKeys keys) = .ok (wordRI 0xF x 0x0A) := hf
  obtain ⟨t, ht, hx, hpc, hwait⟩ := step_ldVxK_stores hf' hk
  obtain ⟨hticks, -⟩ := timersTickUnlessWaiting _ t ht
  exact ⟨t, ht, hx, hpc, hwait, hticks hwait⟩

/-! ### The next `wait` -/

/-- The only dispatch that ends waiting is an FX0A that found no key down (R202). -/
theorem exec_wait_eq_running {i : Instr} {s t : State} (h : exec i s = .next t)
    (hi : (∀ x, i ≠ .ldVxK x) ∨ ¬ NoKeyDown s) : t.wait = .running := by
  cases exec_completes h with
  | waiting x =>
    obtain ⟨k, hk⟩ := exists_lowestKeyDown (hi.resolve_left fun hne => hne x rfl)
    obtain ⟨u, hu, -, -, hframe⟩ := exec_ldVxK_stores x hk
    rw [Host.Outcome.next.inj (h.symm.trans hu)]
    exact hframe.wait_eq
  | registers | index | clear | draw | call | ret => rfl

/-- Settles O48: the timer update keeps the `wait` the dispatch left, and no dispatch reads the `wait` before it. -/
theorem waitIsSetByAnUnresolvedKeyWaitOnly : Obligations.WaitIsSetByAnUnresolvedKeyWaitOnly := by
  intro s t h
  obtain ⟨w, i, u, hf, hd, hu, rfl⟩ := step_eq_next h
  rw [← fetch_eq_nextWord hf, hd, timerUpdate_wait]
  refine ⟨fun x hi hno => ?_, fun hi => exec_wait_eq_running hu ?_⟩
  · obtain rfl := Except.ok.inj hi
    rw [Host.Outcome.next.inj (hu.symm.trans (exec_ldVxK_waits x hno)), setWait_wait]
  · exact hi.imp_left fun hne x hx => hne x (congrArg _ hx)

end Sys2Proof.Machine

/-! # Proofs about faults and the loader port (`60_exceptions.md`)

The faults are inverted once: per instruction that can raise one (`exec_call_eq_fault`, `exec_ret_eq_fault`,
`exec_drw_eq_fault`), for the rest (`exec_ne_fault`), and for the step (`step_eq_fault`). The error record is then read
off the fault, and a fault repeats because its condition names no key. -/

namespace Sys2Proof.Machine

/-! ### The loader port -/

theorem loadImage_of_le {image : List Byte} (s : State) (h : image.length ≤ 3584) :
    loadImage image s = some { s with mem := s.mem.pokes 0x200 image } :=
  if_pos (decide_eq_true h)

theorem loadImage_of_lt {image : List Byte} (s : State) (h : 3584 < image.length) : loadImage image s = none :=
  if_neg fun hfits => absurd (of_decide_eq_true hfits) (Nat.not_le_of_lt h)

theorem peek_pokes_inside {bs : List Byte} (m : Memory) (a : Nat) {k : Nat} (h : k < bs.length) :
    (m.pokes a bs).peek (a + k) = bs[k] := by
  rw [peek_pokes, if_pos (Nat.le_add_right a k), Nat.add_sub_cancel_left, List.getD_eq_getElem _ _ h]

theorem peek_pokes_outside {bs : List Byte} (m : Memory) {a k : Nat} (h : k < a ∨ a + bs.length ≤ k) :
    (m.pokes a bs).peek k = m.peek k := by
  rw [peek_pokes]
  split
  next hk => exact List.getD_eq_default _ _ (by omega)
  next => rfl

/-- Settles O14: the port stores the image's bytes one after the other from 0x200 on; at most 3584 of them end inside
memory. -/
theorem loaderPlacesTheImage : Obligations.LoaderPlacesTheImage := by
  refine fun image s => ⟨fun h => ?_, loadImage_of_lt s⟩
  have hload := loadImage_of_le s h
  obtain ⟨hframe, hwf, -⟩ := loadImage_eq_some hload
  exact ⟨_, hload, hframe, fun _ hk => peek_pokes_inside s.mem 0x200 hk, fun _ ha => peek_pokes_outside s.mem ha,
    fun ⟨hmem, hfb⟩ => ⟨hwf hmem, hfb⟩⟩

/-! ### Unrecognised words -/

theorem decode_error_of_no_row {w : Word} (h : ∀ r ∈ opcodeTable, r.matchesWord w = false) :
    ∃ e, decode w = .error e := by
  cases hd : decode w with
  | error e => exact ⟨e, rfl⟩
  | ok i =>
    have hrow : i.row.matchesWord w = true := (matchesWord_iff_decode i.row_mem w).2 ⟨i, hd, rfl⟩
    exact absurd hrow (Bool.eq_false_iff.1 (h i.row i.row_mem))

/-- Settles O17: a word that decodes matches the row of its instruction, so this one is rejected. -/
theorem unrecognisedWordFaults : Obligations.UnrecognisedWordFaults := by
  intro s hpc h
  obtain ⟨e, hd⟩ := decode_error_of_no_row h
  exact step_of_reject (fetch_ok hpc) hd

/-! ### The faults of dispatch -/

theorem exec_call_eq_fault (nnn : Addr) (s : State) (f : Fault) :
    exec (.call nnn) s = .fault f ↔ s.sp.val = 16 ∧ f = .stackOverflow s.pc (encode (.call nnn)) := by
  by_cases hs : s.sp.val < 16
  · simp [exec_call_of_lt nnn s hs, hs.ne]
  · have hs : s.sp.val = 16 := by omega
    simp [exec_call_of_full nnn s hs, hs, eq_comm]

theorem exec_ret_eq_fault (s : State) (f : Fault) :
    exec .ret s = .fault f ↔ s.sp.val = 0 ∧ f = .stackUnderflow s.pc (encode .ret) := by
  by_cases hs : 0 < s.sp.val
  · simp [exec_ret_of_pos s hs, hs.ne']
  · have hs : s.sp.val = 0 := by omega
    simp [exec_ret_of_zero s hs, hs, encode, eq_comm]

theorem exec_drw_eq_fault (x y : Reg) (n : Nat) (s : State) (f : Fault) :
    exec (.drw x y n) s = .fault f ↔ 0 < n ∧ 4095 < s.idx.toNat + n - 1 ∧
      f = .addressOutOfRange s.pc (encode (.drw x y n)) (BitVec.ofNat 16 (max s.idx.toNat 4096)) := by
  by_cases hn : n = 0 ∨ s.idx.toNat + n ≤ 4096
  · rw [exec_drw_of_inside x y n s hn]
    exact iff_of_false nofun fun ⟨hpos, hout, _⟩ => by omega
  · have hpos : 0 < n := by omega
    have hout : 4095 < s.idx.toNat + n - 1 := by omega
    rw [exec_drw_of_outside x y n s hpos.ne' (by omega)]
    simp [hpos, hout, eq_comm]

theorem exec_ne_fault {i : Instr} (hc : ∀ nnn, i ≠ .call nnn) (hr : i ≠ .ret) (hd : ∀ x y n, i ≠ .drw x y n)
    (s : State) (f : Fault) : exec i s ≠ .fault f := by
  cases i with
  | call nnn => exact absurd rfl (hc nnn)
  | ret => exact absurd rfl hr
  | drw x y n => exact absurd rfl (hd x y n)
  | ldVxK x =>
    cases hk : lowestKey s.keys with
    | none => rw [exec_ldVxK_of_none x s hk]; nofun
    | some k => rw [exec_ldVxK_of_some x s k hk]; nofun
  | _ => exact finish_ne_fault _ _ f

/-- Settles O19: the three instructions that can fault, each by its own condition; every other dispatch completes. -/
theorem onlyCallReturnAndDrawCanFault : Obligations.OnlyCallReturnAndDrawCanFault := by
  intro i s f
  cases i with
  | call nnn => simp [exec_call_eq_fault]
  | ret => simp [exec_ret_eq_fault]
  | drw x y n => simp [exec_drw_eq_fault]
  | _ => refine iff_of_false (exec_ne_fault ?_ ?_ ?_ s f) (by simp) <;> nofun

/-! ### The faults of a step and their records -/

/-- The faults a cycle that fetched `w` can raise, in decode or in dispatch (R211 to R214). -/
inductive FaultsAfterFetch (s : State) (w : Word) : Fault → Prop where
  | decode : FaultsAfterFetch s w (.unrecognizedOpcode s.pc w)
  | overflow : FaultsAfterFetch s w (.stackOverflow s.pc w)
  | underflow : FaultsAfterFetch s w (.stackUnderflow s.pc w)
  | draw : FaultsAfterFetch s w (.addressOutOfRange s.pc w (BitVec.ofNat 16 (max s.idx.toNat 4096)))

theorem exec_faults {i : Instr} {s : State} {f : Fault} (h : exec i s = .fault f) :
    FaultsAfterFetch s (encode i) f := by
  rcases (onlyCallReturnAndDrawCanFault i s f).1 h with ⟨_, _, _, rfl⟩ | ⟨_, _, rfl⟩ | ⟨_, _, _, _, _, _, rfl⟩
  · exact .overflow
  · exact .underflow
  · exact .draw

/-- Inversion of a faulting step (R220): the fetch faulted, or what it fetched is the word recorded. -/
theorem step_eq_fault {s : State} {f : Fault} (h : step s = .fault f) :
    (4094 < s.pc.toNat ∧ f = .addressOutOfRange s.pc 0 (BitVec.ofNat 16 (max s.pc.toNat 4096))) ∨
    ∃ w, fetch s = .ok w ∧ FaultsAfterFetch s w f := by
  rcases step_cases s with ⟨hpc, hs⟩ | ⟨w, _, hf, _, hs⟩ | ⟨w, i, hf, hd, hs⟩
  · cases hs.symm.trans h
    exact .inl ⟨hpc, rfl⟩
  · cases hs.symm.trans h
    exact .inr ⟨w, hf, .decode⟩
  · have hexec : exec i s = .fault f := (afterDispatch_eq_fault _ f).1 (hs.symm.trans h)
    obtain ⟨hw, -⟩ := encodeOfDecodeIsTheWord w i hd
    exact .inr ⟨w, hf, hw ▸ exec_faults hexec⟩

theorem cyclePort_of_fault {s : State} {f : Fault} (h : step s = .fault f) : cyclePort s = (.error f.record, s) := by
  rw [cyclePort, h]

/-- An offending address is recorded unreduced and lies above 4095 (R62, R219). -/
theorem offendingAddr_gt (w : Word) : 4095 < (BitVec.ofNat 16 (max w.toNat 4096)).toNat := by
  rw [BitVec.toNat_ofNat, Nat.mod_eq_of_lt (by omega)]
  omega

theorem FaultsAfterFetch.record {s : State} {w : Word} {f : Fault} (h : FaultsAfterFetch s w f) :
    f.record.pc = s.pc ∧ f.record.word = w ∧
    (f.record.code = 1 ∨ f.record.code = 2 ∨ f.record.code = 3 ∨ f.record.code = 4) ∧
    (f.record.code = 4 → 4095 < f.record.addr.toNat) ∧ (f.record.code ≠ 4 → f.record.addr = 0) := by
  cases h with
  | decode => exact ⟨rfl, rfl, .inl rfl, nofun, fun _ => rfl⟩
  | overflow => exact ⟨rfl, rfl, .inr (.inl rfl), nofun, fun _ => rfl⟩
  | underflow => exact ⟨rfl, rfl, .inr (.inr (.inl rfl)), nofun, fun _ => rfl⟩
  | draw => exact ⟨rfl, rfl, .inr (.inr (.inr rfl)), fun _ => offendingAddr_gt s.idx, fun h => absurd rfl h⟩

/-- Settles O20: the record is read off the fault, by whether the fetch raised it. -/
theorem faultsArePreciseAndRecorded : Obligations.FaultsArePreciseAndRecorded := by
  intro s f h
  refine ⟨cyclePort_of_fault h, ?_⟩
  rcases step_eq_fault h with ⟨hpc, rfl⟩ | ⟨w, hf, hfault⟩
  · exact ⟨rfl, .inr (.inr (.inr rfl)), fun _ => offendingAddr_gt s.pc, fun h => absurd rfl h,
      .inr ⟨hpc, rfl, rfl⟩⟩
  · obtain ⟨hpc, rfl, hcode, haddr, hzero⟩ := hfault.record
    exact ⟨hpc, hcode, haddr, hzero, .inl hf⟩

/-! ### Faults and the keys -/

/-- The condition of a dispatch fault reads `sp`, `pc` and I only. -/
theorem exec_withKeys_eq_fault {i : Instr} {s : State} {f : Fault} (keys : Vector Bool 16)
    (h : exec i s = .fault f) : exec i (s.withKeys keys) = .fault f :=
  (onlyCallReturnAndDrawCanFault i (s.withKeys keys) f).2 ((onlyCallReturnAndDrawCanFault i s f).1 h)

/-- Settles O21: the two states step in lockstep, and no condition of a dispatch fault reads a key. -/
theorem faultRepeatsWhateverTheKeys : Obligations.FaultRepeatsWhateverTheKeys := by
  intro s f keys h
  rcases step_lockstep (s := s) (s' := s.withKeys keys) rfl rfl with ⟨g, hs, hs'⟩ | ⟨i, hs, hs'⟩
  · exact hs'.trans (hs.symm.trans h)
  · have hexec : exec i s = .fault f := (afterDispatch_eq_fault _ f).1 (hs.symm.trans h)
    exact hs'.trans ((afterDispatch_eq_fault _ f).2 (exec_withKeys_eq_fault keys hexec))

end Sys2Proof.Machine

/-! # Proofs about reset and the end of a run (`70_reset_and_hazards.md`), and the two forms of the offset jump

A run that has ended executes a jump that writes `pc` and `wait` as they stand, so a step is the timer update alone
(`Ended.step_eq`). The literal form of the offset jump ANDs two words that are both written in format A
(`formatA_and`). -/

namespace Sys2Proof.Machine

/-! ### Reset -/

/-- Settles O8: the entry point leaves room for both bytes of the fetch. -/
theorem entryPointAfterReset : Obligations.EntryPointAfterReset :=
  ⟨rfl, fetch_ok (by decide), rfl, rfl, rfl, rfl⟩

/-- R242: both bytes lie past the glyph table, where memory reads as the zero fill. -/
theorem fetch_reset : fetch State.reset = .ok 0x0000 := by
  have hzero : nextWord State.reset = 0x0000 := rfl
  rw [fetch_ok (by decide), hzero]

/-- Settles O9: group 0 admits 0x00E0 and 0x00EE only, so the decoder rejects the fetched word. -/
theorem firstCycleWithNoProgramFaults : Obligations.FirstCycleWithNoProgramFaults :=
  ⟨fetch_reset, step_of_reject (r := .group0) fetch_reset rfl⟩

/-! ### Every cycle completes or faults -/

theorem step_ne_refused (s : State) (r : Refusal) : step s ≠ .refused r := by
  rcases step_cases s with ⟨_, hs⟩ | ⟨_, _, _, _, hs⟩ | ⟨_, i, _, _, hs⟩
  · rw [hs]; nofun
  · rw [hs]; nofun
  · rw [hs, ne_eq, afterDispatch_eq_refused]
    exact exec_ne_refused i s r

/-- Settles O18: the third way a step could end, a refusal, is the dispatch's, and no dispatch is refused. -/
theorem everyCycleCompletesOrFaults : Obligations.EveryCycleCompletesOrFaults := by
  intro s
  cases h : step s with
  | next t => exact .inl ⟨t, rfl⟩
  | fault f => exact .inr ⟨f, rfl⟩
  | refused r => exact absurd h (step_ne_refused s r)

/-! ### The end of a run -/

theorem fetch_timerUpdate (s : State) : fetch (timerUpdate s) = fetch s := by
  rw [fetch, fetch, timerUpdate_mem, timerUpdate_pc]

/-- The Timer Unit writes the timers only (R126). -/
theorem timerUpdate_eq_self_but_timers (s : State) :
    timerUpdate s = { s with dt := (timerUpdate s).dt, st := (timerUpdate s).st } := by
  rw [timerUpdate_eq]

/-- A jump to the address it stands at, executed while Running, writes what is there. -/
theorem exec_jp_self {s : State} {nnn : Addr} (hpc : zextAddr nnn = s.pc) (hw : s.wait = .running) :
    exec (.jp nnn) s = .next s := by
  rw [exec_jp, hpc, ← hw]
  rfl

theorem Ended.step_eq {s : State} (h : Ended s) : step s = .next (timerUpdate s) := by
  obtain ⟨hw, nnn, hpc, hf⟩ := h
  rw [step_of_decode hf (Laws.RoundTrip.jp nnn rfl), exec_jp_self hpc hw, afterDispatch]

theorem Ended.ended_timerUpdate {s : State} (h : Ended s) : Ended (timerUpdate s) := by
  rwa [Ended, timerUpdate_wait, timerUpdate_pc, fetch_timerUpdate]

/-- Settles O55: the step is the timer update, which writes the timers only and ticks both while Running. -/
theorem endedRunOnlyCountsDown : Obligations.EndedRunOnlyCountsDown := by
  intro s h
  have ⟨hw, _⟩ := h
  refine ⟨_, h.step_eq, h.ended_timerUpdate, timerUpdate_eq_self_but_timers s, ?_, ?_⟩
  · rw [timerUpdate_dt, if_pos hw, tick_toNat]
  · rw [timerUpdate_st, if_pos hw, tick_toNat]

/-! ### The two forms of the offset jump -/

theorem formatA_and (g h : BitVec 4) (a b : Addr) : formatA g a &&& formatA h b = formatA (g &&& h) (a &&& b) :=
  BitVec.and_append

/-- The literal form's mask for `V0 = 0`: the address field. -/
theorem literalMask_zero : 0x0FFF#16 + zextByte 0 = formatA 0 (BitVec.allOnes 12) := rfl

/-- The address field of that mask for `V0 > 0`. -/
theorem setWidth_sub_one_toNat {v0 : Byte} (h : v0 ≠ 0) :
    ((v0 - 1).setWidth 12 : Addr).toNat = v0.toNat - 1 := by
  bv_omega

/-- The literal form's mask for `V0 > 0`: the sum carries into the group field. -/
theorem literalMask_of_ne_zero {v0 : Byte} (h : v0 ≠ 0) :
    0x0FFF#16 + zextByte v0 = formatA 1 ((v0 - 1).setWidth 12) := by
  have hpos : 0 < v0.toNat := by bv_omega
  have hlt : v0.toNat < 256 := v0.isLt
  apply BitVec.eq_of_toNat_eq
  calc (0x0FFF#16 + zextByte v0).toNat
      = (0x0FFF + v0.toNat) % 65536 := by rw [BitVec.toNat_add, zextByte_toNat]; rfl
    _ = 1 * 4096 + (v0.toNat - 1) := by omega
    _ = (formatA 1 ((v0 - 1).setWidth 12)).toNat := by rw [formatA_toNat, setWidth_sub_one_toNat h]; rfl

/-- ANDed with a byte's number, only the low byte of a number counts. -/
theorem and_eq_mod_and_of_lt {a b : Nat} (h : b < 256) : a &&& b = a % 256 &&& b :=
  calc a &&& b
      = (a &&& b) % 256 := (Nat.mod_eq_of_lt (Nat.lt_of_le_of_lt Nat.and_le_right h)).symm
    _ = a % 256 &&& b % 256 := Nat.and_mod_two_pow (n := 8)
    _ = a % 256 &&& b := by rw [Nat.mod_eq_of_lt h]

/-- Settles O26: an address of 12 bits is kept whole by the mask of `V0 = 0`; the mask of `V0 > 0` keeps bit 12 of the
group 0xB and, of the address, no bit above the low byte. -/
theorem offsetJumpFormsCompared : Obligations.OffsetJumpFormsCompared := by
  refine fun nnn => ⟨fun mode => ?_, fun v0 h => ?_⟩
  · cases mode with
    | sum => exact jumpTarget_sum_toNat nnn 0
    | literal =>
      rw [jumpTarget, encode, literalMask_zero, formatA_and, BitVec.and_allOnes, formatA_toNat]
      simp
  · have hbyte : v0.toNat - 1 < 256 := by bv_omega
    rw [jumpTarget, encode, literalMask_of_ne_zero h, formatA_and, formatA_toNat, BitVec.toNat_and nnn,
      setWidth_sub_one_toNat h, and_eq_mod_and_of_lt hbyte]
    rfl

end Sys2Proof.Machine
